-- ==== Sys2Proof/Word.lean ====
section
/-! DEFINITION. The words of TSC and the plain data built from them: the register bank SEG, the operands of a
command, the statuses and values a command answers, and what the external collaborators answer. -/

namespace Sys2Proof

/-- One location of either byte space (10_state.md R20). -/
abbrev Byte := BitVec 8

/-- A 16-bit field value. -/
abbrev Half := BitVec 16

/-- The width of the `DATA` and `VAL` ports (30_encoding.md R61). -/
abbrev Word := BitVec 32

/-- `ExtCode`, the codes TSC passes through and never originates (10_state.md R16, D28).
DESIGN CHOICE (log 10): a natural number; an instance with fewer codes is one that never reports the others. -/
abbrev ExtCode := Nat

/-- The link-layer context operand of MUTATE (D29): opaque, told apart only by its token.
DESIGN CHOICE (log 11). -/
structure LCtx where
  token : Nat
deriving DecidableEq, Repr, Inhabited

/-- `MUT_CTX`, the opaque context value of the attached mutator (10_state.md R19): told apart only by its token.
DESIGN CHOICE (log 11). -/
structure MutCtx where
  token : Nat
deriving DecidableEq, Repr, Inhabited

/-- The nine fields of SEG, in the order of 30_encoding.md R61; selectors 9 to 15 name no field. -/
inductive Field where
  | source
  | destination
  | sequence
  | acknowledgment
  | data_offset
  | control_bits
  | window_size
  | checksum
  | urgent_pointer
deriving DecidableEq, Repr, Inhabited

/-- SEG, the Segment register bank: nine unsigned fields of exactly these widths (10_state.md R10). DEDUCED (log 25): the
widths of R10's table, 157 bits in all, where the sentence under the table and R130 count 153. -/
structure Segment where
  source         : BitVec 16
  destination    : BitVec 16
  sequence       : BitVec 32
  acknowledgment : BitVec 32
  data_offset    : BitVec 4
  control_bits   : BitVec 9
  window_size    : BitVec 16
  checksum       : BitVec 16
  urgent_pointer : BitVec 16
deriving DecidableEq, Repr, Inhabited

/-- The port text operand: `TEXT` and its explicit length `LEN` (30_encoding.md R56). `text` holds the bytes that can
be read; `len` says how many belong to the text (D11). -/
structure PortText where
  text : List Byte
  len  : Nat
deriving DecidableEq, Repr, Inhabited

/-- What the Port Parser answers (40_port_parser.md R71). -/
inductive ParseResult where
  | ok (v : Half)
  | badField
deriving DecidableEq, Repr, Inhabited

/-- The status a command answers (10_state.md R16). -/
inductive Status where
  | none
  | badField
  | missingData
  | foreign (e : ExtCode)
deriving DecidableEq, Repr, Inhabited

/-- The statuses the Buffer may report when a reservation fails: any but `None` (20_memory.md R35). -/
inductive BufError where
  | badField
  | missingData
  | foreign (e : ExtCode)
deriving DecidableEq, Repr, Inhabited

/-- What the Buffer answers to `Reserve(n)`: it has grown, or it reports an error and holds the bytes `after`
(20_memory.md R34, R35; the content after a failure is the Buffer's own matter, U5). -/
inductive ReserveAnswer where
  | ok
  | fail (e : BufError) (after : List Byte)
deriving DecidableEq, Repr, Inhabited

/-- What the callback hands back: a segment and a status (44_mutator.md R102). -/
structure CallbackAnswer where
  seg : Segment
  st  : Status
deriving DecidableEq, Repr, Inhabited

/-- What TSC hands to the callback on the mutator port (44_mutator.md R101). -/
structure MutatorCall where
  ctx  : MutCtx
  seg  : Segment
  lctx : Option LCtx
deriving DecidableEq, Repr, Inhabited

/-- The data value beside the status (10_state.md R18): none, the 16 bits of PARSE, the 32 bits of RDF. -/
inductive DataVal where
  | absent
  | port (v : Half)
  | field (v : Word)
deriving DecidableEq, Repr, Inhabited

/-- `ST` and `VAL` of one command (10_state.md R16 to R18). -/
structure Answer where
  st  : Status
  val : DataVal
deriving DecidableEq, Repr, Inhabited

/-- A presented command: the 8-bit command word and the operand ports beside it (30_encoding.md R60). A command reads
the ports its row names and no other. DESIGN CHOICE (log 2): the ports are one record. -/
structure Presented where
  cw   : Byte
  text : PortText
  lctx : Option LCtx
  data : Word
deriving DecidableEq, Repr, Inhabited

end Sys2Proof
end

