-- ==== Sys2Proof/Config.lean ====
section
/-! DEFINITION. The constants the source fixes (00_scope.md R5) and the free values: constants with no body, so that no
proof can see what they are. -/

namespace Sys2Proof

/-- `HDR_LEN`: bytes of the wire header (00_scope.md R5). -/
abbrev Config.hdrLen : Nat := 20

/-- `DOFF_FIXED`: the data offset written by INIT and PACK (00_scope.md R5). -/
abbrev Config.doffFixed : BitVec 4 := 5

/-- `PORT_SCAN_MAX`: most text characters the Port Parser scans (00_scope.md R5). -/
abbrev Config.portScanMax : Nat := 5

/-- `PORT_MAX`: largest valid port value (00_scope.md R5). -/
abbrev Config.portMax : Nat := 65535

/-- `ANY_w`, the free draw number `n` at width `w` (00_scope.md R7; log 7). -/
opaque Config.freeBits (w n : Nat) : BitVec w

/-- The Buffer's answer to `Reserve(n)` on content `buf`, at draw number `k`, when State lists no answer
(20_memory.md R35, U5, U6; log 8). -/
opaque Config.freeReserve (k n : Nat) (buf : List Byte) : ReserveAnswer

/-- The callback's answer, at draw number `k`, when State lists no answer (44_mutator.md R102, U10; log 9). -/
opaque Config.freeCallback (k : Nat) (c : MutatorCall) : CallbackAnswer

end Sys2Proof
end

