-- ==== Sys2Proof/Machine/Operands.lean ====
section
/-! DEFINITION. The operand forms of the commands: a field selected out of SEG, with its 32-bit view on the `DATA` and
`VAL` ports, and the scanned part of a port text. -/

namespace Sys2Proof.Machine

/-- The width of a field in bits (10_state.md R10; 30_encoding.md R61). -/
def fieldWidth : Field → Nat
  | .source => 16
  | .destination => 16
  | .sequence => 32
  | .acknowledgment => 32
  | .data_offset => 4
  | .control_bits => 9
  | .window_size => 16
  | .checksum => 16
  | .urgent_pointer => 16

/-- `DATA` has no 1 above the field's width (30_encoding.md R61, R62). -/
def fieldFits (f : Field) (data : Word) : Bool :=
  decide (data.toNat < 2 ^ fieldWidth f)

/-- `zext_32(SEG.field(sel))`, what RDF answers (41_segment_model.md R84). -/
def readField (g : Segment) : Field → Word
  | .source => g.source.setWidth 32
  | .destination => g.destination.setWidth 32
  | .sequence => g.sequence
  | .acknowledgment => g.acknowledgment
  | .data_offset => g.data_offset.setWidth 32
  | .control_bits => g.control_bits.setWidth 32
  | .window_size => g.window_size.setWidth 32
  | .checksum => g.checksum.setWidth 32
  | .urgent_pointer => g.urgent_pointer.setWidth 32

/-- `SEG.field(sel) <- DATA[width(sel)-1 : 0]`, what WRF does (41_segment_model.md R85). -/
def writeField (g : Segment) (f : Field) (data : Word) : Segment :=
  match f with
  | .source => { g with source := data.setWidth 16 }
  | .destination => { g with destination := data.setWidth 16 }
  | .sequence => { g with sequence := data }
  | .acknowledgment => { g with acknowledgment := data }
  | .data_offset => { g with data_offset := data.setWidth 4 }
  | .control_bits => { g with control_bits := data.setWidth 9 }
  | .window_size => { g with window_size := data.setWidth 16 }
  | .checksum => { g with checksum := data.setWidth 16 }
  | .urgent_pointer => { g with urgent_pointer := data.setWidth 16 }

/-- `min(LEN, 5)`: how many bytes of the text are scanned (40_port_parser.md R71, R72). -/
def scanCount (t : PortText) : Nat :=
  min t.len Config.portScanMax

/-- The text operand holds the bytes that are scanned (D11). -/
def textPresent (t : PortText) : Bool :=
  decide (scanCount t ≤ t.text.length)

/-- The scanned bytes `TEXT[0] .. TEXT[min(LEN,5)-1]`; bytes from index 5 on are never read (40_port_parser.md R72). -/
def scannedText (t : PortText) : List Byte :=
  t.text.take (scanCount t)

end Sys2Proof.Machine
end

