-- ==== Sys2Proof/Syntax.lean ====
section
/-! DEFINITION. The commands of TSC: one constructor per row of spec/opcode_table.json. -/

namespace Sys2Proof

/-- The nine commands (30_encoding.md R60). What R62 calls unassigned has no constructor here; the two checks a term can
still fail (a text with too few bytes, over-wide WRF data) are in WellFormed. -/
inductive Instr where
  /-- INIT (41_segment_model.md R80). -/
  | init
  /-- SETSRC "text" (41_segment_model.md R81). -/
  | setSrc (t : PortText)
  /-- SETDST "text" (41_segment_model.md R82). -/
  | setDst (t : PortText)
  /-- MUTATE [lctx] (44_mutator.md R100). -/
  | mutate (lctx : Option LCtx)
  /-- PACK (42_codec_pack.md R90). -/
  | pack
  /-- UNPACK (43_codec_unpack.md R95). -/
  | unpack
  /-- PARSE "text" (40_port_parser.md R70). -/
  | parse (t : PortText)
  /-- RDF field (41_segment_model.md R84). -/
  | rdf (f : Field)
  /-- WRF field, data (41_segment_model.md R85). -/
  | wrf (f : Field) (data : Word)
deriving DecidableEq, Repr, Inhabited

end Sys2Proof
end

