-- ==== Sys2Proof/WellFormed.lean ====
section
/-! DEFINITION. Which terms of `Instr` are commands of TSC. -/

namespace Sys2Proof

/-- A text operand holds its scanned bytes (D11), and WRF data fits the selected field (30_encoding.md R62). Every
other term is a command. -/
def Instr.wf : Instr → Bool
  | .init => true
  | .setSrc t => Machine.textPresent t
  | .setDst t => Machine.textPresent t
  | .mutate _ => true
  | .pack => true
  | .unpack => true
  | .parse t => Machine.textPresent t
  | .rdf _ => true
  | .wrf f data => Machine.fieldFits f data

end Sys2Proof
end

