-- ==== Sys2Proof/Decode.lean ====
section
/-! DEFINITION. The decoder from a presented command (command word and operand ports) to an instruction, total,
rejecting by name; after it the encoder, the opcode table's rows, and the numbers of the statuses. -/

namespace Sys2Proof

/-- Why a presentation is no command (30_encoding.md R62; D21): the decoder's own verdict, not a status of TSC. -/
inductive DecodeError where
  /-- `CW[3:0]` is 9 to 15. -/
  | unassignedOp (op : BitVec 4)
  /-- `CW[7:4]` is 9 to 15 with RDF or WRF. -/
  | unassignedSel (sel : BitVec 4)
  /-- `CW[7:4]` is not 0 with a command that has no selector. -/
  | straySel (sel : BitVec 4)
  /-- `DATA` of a WRF has a 1 above the field's width. -/
  | overWideData (f : Field) (data : Word)
  /-- `TEXT` holds fewer than `min(LEN, 5)` bytes (D11). -/
  | shortText (t : PortText)
deriving DecidableEq, Repr, Inhabited

/-- The operation code `CW[3:0]` (30_encoding.md R60). -/
def opOf (cw : Byte) : BitVec 4 := cw.extractLsb' 0 4

/-- The field selector `CW[7:4]` (30_encoding.md R60). -/
def selOf (cw : Byte) : BitVec 4 := cw.extractLsb' 4 4

/-- The field a selector names (30_encoding.md R61); 9 to 15 name none. -/
def fieldOfSel (sel : BitVec 4) : Option Field :=
  match sel.toNat with
  | 0 => some .source
  | 1 => some .destination
  | 2 => some .sequence
  | 3 => some .acknowledgment
  | 4 => some .data_offset
  | 5 => some .control_bits
  | 6 => some .window_size
  | 7 => some .checksum
  | 8 => some .urgent_pointer
  | _ => none

/-- A command without selector: `CW[7:4]` is required to be 0 (30_encoding.md R60, R62). -/
def decodePlain (sel : BitVec 4) (i : Instr) : Except DecodeError Instr :=
  if sel = 0 then .ok i else .error (.straySel sel)

/-- A command with a text operand: as `decodePlain`, and the scanned bytes are there. -/
def decodeText (sel : BitVec 4) (t : PortText) (i : Instr) : Except DecodeError Instr :=
  if sel = 0 then
    if Machine.textPresent t then .ok i else .error (.shortText t)
  else .error (.straySel sel)

/-- RDF: the selector names a field. -/
def decodeRdf (sel : BitVec 4) : Except DecodeError Instr :=
  match fieldOfSel sel with
  | some f => .ok (.rdf f)
  | none => .error (.unassignedSel sel)

/-- WRF: the selector names a field and the data fits it. -/
def decodeWrf (sel : BitVec 4) (data : Word) : Except DecodeError Instr :=
  match fieldOfSel sel with
  | some f => if Machine.fieldFits f data then .ok (.wrf f data) else .error (.overWideData f data)
  | none => .error (.unassignedSel sel)

/-- The decoder (30_encoding.md R60 to R62, R66). -/
def decode (p : Presented) : Except DecodeError Instr :=
  match (opOf p.cw).toNat with
  | 0 => decodePlain (selOf p.cw) .init
  | 1 => decodeText (selOf p.cw) p.text (.setSrc p.text)
  | 2 => decodeText (selOf p.cw) p.text (.setDst p.text)
  | 3 => decodePlain (selOf p.cw) (.mutate p.lctx)
  | 4 => decodePlain (selOf p.cw) .pack
  | 5 => decodePlain (selOf p.cw) .unpack
  | 6 => decodeText (selOf p.cw) p.text (.parse p.text)
  | 7 => decodeRdf (selOf p.cw)
  | 8 => decodeWrf (selOf p.cw) p.data
  | _ => .error (.unassignedOp (opOf p.cw))

/-- The presentation of a row of the opcode table: its `nbits` bits as the command word, every operand port at zero
(no text, no context, data 0). A row of the table has 8 bits (log 2). -/
def tablePresented (nbits w : Nat) : Presented :=
  { cw := BitVec.ofNat 8 (w % 2 ^ nbits), text := ⟨[], 0⟩, lctx := none, data := 0 }

/-- The instruction the decoder reads from the opcode-table word `w` of `nbits` bits. -/
def decodeTableWord (nbits w : Nat) : Option Instr :=
  match decode (tablePresented nbits w) with
  | .ok i => some i
  | .error _ => none

/-- The selector of a field (30_encoding.md R61). -/
def selOfField : Field → BitVec 4
  | .source => 0
  | .destination => 1
  | .sequence => 2
  | .acknowledgment => 3
  | .data_offset => 4
  | .control_bits => 5
  | .window_size => 6
  | .checksum => 7
  | .urgent_pointer => 8

/-- The command word: selector in the high nibble, operation in the low one (30_encoding.md R60). -/
def commandWord (sel op : BitVec 4) : Byte := sel ++ op

/-- The encoder: the command word of an instruction with its operands on the ports its row names, the other ports at
zero (30_encoding.md R60, R61). -/
def encode : Instr → Presented
  | .init => { cw := commandWord 0 0x0, text := ⟨[], 0⟩, lctx := none, data := 0 }
  | .setSrc t => { cw := commandWord 0 0x1, text := t, lctx := none, data := 0 }
  | .setDst t => { cw := commandWord 0 0x2, text := t, lctx := none, data := 0 }
  | .mutate l => { cw := commandWord 0 0x3, text := ⟨[], 0⟩, lctx := l, data := 0 }
  | .pack => { cw := commandWord 0 0x4, text := ⟨[], 0⟩, lctx := none, data := 0 }
  | .unpack => { cw := commandWord 0 0x5, text := ⟨[], 0⟩, lctx := none, data := 0 }
  | .parse t => { cw := commandWord 0 0x6, text := t, lctx := none, data := 0 }
  | .rdf f => { cw := commandWord (selOfField f) 0x7, text := ⟨[], 0⟩, lctx := none, data := 0 }
  | .wrf f data => { cw := commandWord (selOfField f) 0x8, text := ⟨[], 0⟩, lctx := none, data := data }

/-- One row of spec/opcode_table.json: mnemonic, match and mask on the command word. -/
structure OpcodeRow where
  mnemonic : String
  pattern  : Byte
  mask     : Byte
deriving DecidableEq, Repr

/-- The opcode table (30_encoding.md R60). -/
def opcodeRows : List OpcodeRow :=
  [ ⟨"INIT", 0x00, 0xFF⟩, ⟨"SETSRC", 0x01, 0xFF⟩, ⟨"SETDST", 0x02, 0xFF⟩, ⟨"MUTATE", 0x03, 0xFF⟩,
    ⟨"PACK", 0x04, 0xFF⟩, ⟨"UNPACK", 0x05, 0xFF⟩, ⟨"PARSE", 0x06, 0xFF⟩, ⟨"RDF", 0x07, 0x0F⟩,
    ⟨"WRF", 0x08, 0x0F⟩ ]

/-- The mnemonic of an instruction (30_encoding.md R60). -/
def mnemonicOf : Instr → String
  | .init => "INIT"
  | .setSrc _ => "SETSRC"
  | .setDst _ => "SETDST"
  | .mutate _ => "MUTATE"
  | .pack => "PACK"
  | .unpack => "UNPACK"
  | .parse _ => "PARSE"
  | .rdf _ => "RDF"
  | .wrf _ _ => "WRF"

/-- The status output `ST` as bits: `kind` and `ext` (30_encoding.md R63); `ext` is meaningless, here absent, for kinds
0 to 2. -/
def encodeStatus : Status → BitVec 2 × Option ExtCode
  | .none => (0, none)
  | .badField => (1, none)
  | .missingData => (2, none)
  | .foreign e => (3, some e)

/-- The status that a pair (`kind`, `ext`) stands for (30_encoding.md R63); kind 3 without a code stands for none. -/
def decodeStatus (kind : BitVec 2) (ext : Option ExtCode) : Option Status :=
  match kind.toNat, ext with
  | 0, _ => some .none
  | 1, _ => some .badField
  | 2, _ => some .missingData
  | _, some e => some (.foreign e)
  | _, none => none

end Sys2Proof
end

