-- ==== Sys2Proof/Machine/State.lean ====
section
/-! DEFINITION. The state of one TSC instance and of what it reaches, the reasons a step can stop, and the state after
reset. -/

namespace Sys2Proof.Machine

/-- The Buffer's content (10_state.md R20, R21): one cell per byte, at its offset from the front. Canonical form
(`Memory.wf`): the offsets are 0, 1, .., size-1 in this order. An offset not listed does not exist. -/
abbrev Memory := List Host.Cell

/-- What the host, or the world around TSC, does next. -/
inductive HostInput where
  /-- The host presents a command (30_encoding.md R60). -/
  | present (p : Presented)
  /-- Between two commands the platform or the host changes the Buffer's content (70_reset_and_hazards.md R131, R134,
  R138; log 18). -/
  | putBuffer (bytes : List Byte)
  /-- Reset of TSC, between two commands (70_reset_and_hazards.md R130 to R132; log 18). -/
  | reset
  /-- Two users present commands to the instance at the same time (60_exceptions.md R123; log 19). -/
  | overlap (p q : Presented)
  /-- Another agent touches the Buffer during a command (20_memory.md R43, R46; log 19). -/
  | bufferRace (p : Presented)
deriving DecidableEq, Repr

/-- The state: TSC's own registers and configuration, the Buffer, the inputs still to come, the outputs of the step just
made, and the model's draw counter. Plain data. -/
structure State where
  /-- SEG (10_state.md R10). -/
  seg : Segment
  /-- BUF (10_state.md R21; 20_memory.md R32). -/
  buf : Memory
  /-- `MUT_PRESENT` and `MUT_CTX`: `none` is `MUT_PRESENT = 0` (10_state.md R19; log 6). -/
  mutator : Option MutCtx
  /-- What the host does next, oldest first (10_state.md R15; log 1). -/
  inputs : List HostInput
  /-- The Buffer's coming answers to `Reserve`, oldest first (20_memory.md R35; log 8). -/
  reserves : List ReserveAnswer
  /-- The callback's coming answers, oldest first (44_mutator.md R102; log 9). -/
  callbacks : List CallbackAnswer
  /-- Output: what the step just made answers; no command reads it (10_state.md R16 to R18; log 3). -/
  answer : Option Answer
  /-- Output: what the step just made handed to the callback; no command reads it (44_mutator.md R101; log 3). -/
  call : Option MutatorCall
  /-- The model's own: the number of the next free value (log 7). -/
  draws : Nat
deriving DecidableEq, Repr

/-- Why a step faults. -/
inductive Fault where
  /-- UNPACK reads an offset that the Buffer does not list although its size says it should. Cannot happen in a Buffer
  of canonical form (00_scope.md R7; log 20). Safe: the model stops. -/
  | offsetOutsideBuffer
deriving DecidableEq, Repr

/-- Why a step is refused. -/
inductive Refusal where
  /-- `exec`'s arm of an instruction that has no meaning yet. Safe. No arm uses it. -/
  | notModelled (mnemonic : String)
  /-- The presentation, or the term given to a meaning, is no command (30_encoding.md R62; U12). Raised by `react` and
  by the meanings of SETSRC, SETDST, PARSE and WRF on ill-formed terms. Safe. -/
  | notACommand (e : DecodeError)
  /-- Two users on one instance at once (60_exceptions.md R123; U13). Raised by `react`. Safe. -/
  | unsynchronisedUsers
  /-- Another agent on the Buffer during a command (20_memory.md R46; U13). Raised by `react`. Safe. -/
  | bufferRace
deriving DecidableEq, Repr

/-- The value the model gives SEG in `State.reset`: zero in every field. DESIGN CHOICE (log 4): the spec leaves SEG
unspecified after reset (70_reset_and_hazards.md R130). -/
def zeroSegment : Segment :=
  { source := 0, destination := 0, sequence := 0, acknowledgment := 0, data_offset := 0,
    control_bits := 0, window_size := 0, checksum := 0, urgent_pointer := 0 }

/-- The machine right after reset: idle, nothing answered (70_reset_and_hazards.md R132). DESIGN CHOICE: SEG (log 4), BUF
(log 5), no mutator (log 6), the draw counter (log 7), no listed answers of the Buffer and the callback (log 8, log 9). -/
def State.reset : State :=
  { seg := zeroSegment
    buf := []
    mutator := none
    inputs := []
    reserves := []
    callbacks := []
    answer := none
    call := none
    draws := 0 }

end Sys2Proof.Machine
end

