-- ==== Sys2Proof/Machine/Ops.lean ====
section
/-! DEFINITION. The named operations the meanings share: the Buffer's bytes, free values, the answers of the Buffer and
the callback, and answering a status (what TSC has in place of taking an exception). -/

namespace Sys2Proof.Machine

/-! ### The Buffer -/

/-- Bytes at the offsets `start`, `start + 1`, … -/
def Memory.numbered (start : Nat) : List Byte → Memory
  | [] => []
  | b :: bs => (start, b) :: Memory.numbered (start + 1) bs

/-- The Buffer that holds exactly these bytes, the first at the front (10_state.md R21). -/
def Memory.ofBytes (bs : List Byte) : Memory :=
  Memory.numbered 0 bs

/-- The Buffer's bytes, the front first. -/
def Memory.bytes (m : Memory) : List Byte :=
  m.map Prod.snd

/-- `BUF.size` (20_memory.md R32, R33). -/
def Memory.size (m : Memory) : Nat :=
  m.length

/-- Canonical form: the listed offsets are 0, 1, .., size-1, in this order (10_state.md R21). -/
def Memory.wf (m : Memory) : Bool :=
  decide (m.map Prod.fst = List.range m.length)

/-- The byte at an offset; none where the Buffer lists no such offset (00_scope.md R7). -/
def Memory.read : Memory → Nat → Option Byte
  | [], _ => none
  | (a, b) :: m, off => if a = off then some b else Memory.read m off

/-- Store a byte at a listed offset. The rules write only at listed offsets (00_scope.md R7; log 20): at any other this
changes nothing. -/
def Memory.write : Memory → Nat → Byte → Memory
  | [], _, _ => []
  | (a, b) :: m, off, v => if a = off then (a, v) :: m else (a, b) :: Memory.write m off v

/-- `MemRead(off, 2)`: the byte at the lower offset is the more significant (20_memory.md R37). -/
def Memory.read16 (m : Memory) (off : Nat) : Option Half :=
  match m.read off, m.read (off + 1) with
  | some hi, some lo => some (hi ++ lo)
  | _, _ => none

/-- `MemRead(off, 4)` (20_memory.md R37). -/
def Memory.read32 (m : Memory) (off : Nat) : Option Word :=
  match m.read16 off, m.read16 (off + 2) with
  | some hi, some lo => some (hi ++ lo)
  | _, _ => none

/-- `MemWrite(off, 2, v)`: the most significant byte goes to the lowest offset (20_memory.md R38). -/
def Memory.write16 (m : Memory) (off : Nat) (v : Half) : Memory :=
  (m.write off (v.extractLsb' 8 8)).write (off + 1) (v.extractLsb' 0 8)

/-- `MemWrite(off, 4, v)` (20_memory.md R38). -/
def Memory.write32 (m : Memory) (off : Nat) (v : Word) : Memory :=
  (m.write16 off (v.extractLsb' 16 16)).write16 (off + 2) (v.extractLsb' 0 16)

/-- The Buffer after a successful `Reserve`: the new bytes at the front, every old byte unchanged and in the old order,
further from the front by their number (20_memory.md R34). -/
def Memory.reserve (fresh : List Byte) (m : Memory) : Memory :=
  Memory.ofBytes fresh ++ m.map (fun c => (c.1 + fresh.length, c.2))

/-! ### Free values -/

/-- Nine free values, one per field, numbered from `k` (43_codec_unpack.md R97; 70_reset_and_hazards.md R130). DEDUCED (log
25): every bit of every field is drawn, 157 bits, where R130 counts 153. -/
def drawSegment (k : Nat) : Segment :=
  { source := Config.freeBits 16 k
    destination := Config.freeBits 16 (k + 1)
    sequence := Config.freeBits 32 (k + 2)
    acknowledgment := Config.freeBits 32 (k + 3)
    data_offset := Config.freeBits 4 (k + 4)
    control_bits := Config.freeBits 9 (k + 5)
    window_size := Config.freeBits 16 (k + 6)
    checksum := Config.freeBits 16 (k + 7)
    urgent_pointer := Config.freeBits 16 (k + 8) }

/-- `n` free bytes, numbered from `k`: what a reservation holds before it is written (20_memory.md R34, U7). -/
def drawBytes (k n : Nat) : List Byte :=
  (List.range n).map (fun i => Config.freeBits 8 (k + i))

/-- `n` free values have been drawn. -/
def State.spend (s : State) (n : Nat) : State :=
  { s with draws := s.draws + n }

/-! ### The answers of the external collaborators -/

/-- What the Buffer answers to `Reserve(n)`: the next listed answer, or a free one (20_memory.md R35; log 8). -/
def State.reserveAnswer (s : State) (n : Nat) : ReserveAnswer :=
  match s.reserves with
  | [] => Config.freeReserve s.draws n s.buf.bytes
  | a :: _ => a

/-- The state once that answer has been taken. -/
def State.afterReserve (s : State) : State :=
  match s.reserves with
  | [] => s.spend 1
  | _ :: rest => { s with reserves := rest }

/-- What the callback answers when it is handed `c`: the next listed answer, or a free one (44_mutator.md R102; log 9). -/
def State.callbackAnswer (s : State) (c : MutatorCall) : CallbackAnswer :=
  match s.callbacks with
  | [] => Config.freeCallback s.draws c
  | a :: _ => a

/-- The state once that answer has been taken. -/
def State.afterCallback (s : State) : State :=
  match s.callbacks with
  | [] => s.spend 1
  | _ :: rest => { s with callbacks := rest }

/-- The Buffer's error as the status of the command: passed through, never `None` (60_exceptions.md R112). -/
def statusOfError : BufError → Status
  | .badField => .badField
  | .missingData => .missingData
  | .foreign e => .foreign e

/-! ### Answering -/

/-- End the command with a status and a data value: `return` and `raise` of 00_scope.md R7. It is not a trap: nothing is
saved, control goes nowhere, and nothing is latched (60_exceptions.md R114, R116; 10_state.md R17). There is no return
from it (60_exceptions.md R119). -/
def State.answering (s : State) (st : Status) (val : DataVal) : State :=
  { s with answer := some ⟨st, val⟩, call := none }

/-- No output: what a step answers that performs no command (log 3). -/
def State.quiet (s : State) : State :=
  { s with answer := none, call := none }

end Sys2Proof.Machine
end

