-- ==== Sys2Proof/Machine/Codec.lean ====
section
/-! DEFINITION. The codec: the wire header, PACK and UNPACK (30_encoding.md section 1, 42_codec_pack.md,
43_codec_unpack.md). -/

namespace Sys2Proof.Machine

/-! ### The pieces of bytes 12 and 13 -/

/-- Byte 12 on encode: the nibble 5, three zero bits, NS (30_encoding.md R51, R53, R57). -/
def byte12 (ctl : BitVec 9) : Byte :=
  Config.doffFixed ++ 0b000#3 ++ ctl.extractLsb' 8 1

/-- Byte 13: CWR, ECE, URG, ACK, PSH, RST, SYN, FIN (30_encoding.md R52). -/
def byte13 (ctl : BitVec 9) : Byte :=
  ctl.extractLsb' 0 8

/-- The data offset on decode: the high nibble of byte 12, as found (30_encoding.md R54). -/
def dataOffsetOf (b12 : Byte) : BitVec 4 :=
  b12.extractLsb' 4 4

/-- The control bits on decode: NS on top of byte 13 (30_encoding.md R54). -/
def controlBitsOf (b12 b13 : Byte) : BitVec 9 :=
  b12.extractLsb' 0 1 ++ b13

/-! ### PACK -/

/-- The ten field writes of PACK into offsets 0 to 19 (42_codec_pack.md R90). -/
def writeHeader (g : Segment) (m : Memory) : Memory :=
  let m := m.write16 0 g.source
  let m := m.write16 2 g.destination
  let m := m.write32 4 g.sequence
  let m := m.write32 8 g.acknowledgment
  let m := m.write 12 (byte12 g.control_bits)
  let m := m.write 13 (byte13 g.control_bits)
  let m := m.write16 14 g.window_size
  let m := m.write16 16 0
  m.write16 18 g.urgent_pointer

/-- PACK once `Reserve(20)` has answered `ok` (42_codec_pack.md R90, R91, R93): `s` is the state in which that answer has
been taken. -/
def packReserved (s : State) : State :=
  ({ s with
      buf := writeHeader s.seg (s.buf.reserve (drawBytes s.draws Config.hdrLen))
      seg := { s.seg with data_offset := Config.doffFixed } }.spend Config.hdrLen).answering .none .absent

/-- PACK when `Reserve(20)` has failed: no byte is written by TSC, BUF holds what the Buffer left, `SEG.data_offset` is a
free value, the status is the Buffer's (42_codec_pack.md R92). -/
def packFailed (e : BufError) (after : List Byte) (s : State) : State :=
  ({ s with
      buf := Memory.ofBytes after
      seg := { s.seg with data_offset := Config.freeBits 4 s.draws } }.spend 1).answering (statusOfError e) .absent

/-- PACK (42_codec_pack.md R90). -/
def execPack (s : State) : Host.Outcome State Fault Refusal :=
  .next (match s.reserveAnswer Config.hdrLen with
    | .ok => packReserved s.afterReserve
    | .fail e after => packFailed e after s.afterReserve)

/-! ### UNPACK -/

/-- The ten field reads of UNPACK from offsets 0 to 19 (43_codec_unpack.md R95); none where the Buffer lists no such
offset. -/
def readHeader (m : Memory) : Option Segment := do
  let b12 ← m.read 12
  let b13 ← m.read 13
  let source ← m.read16 0
  let destination ← m.read16 2
  let sequence ← m.read32 4
  let acknowledgment ← m.read32 8
  let window_size ← m.read16 14
  let checksum ← m.read16 16
  let urgent_pointer ← m.read16 18
  some
    { source, destination, sequence, acknowledgment
      data_offset := dataOffsetOf b12
      control_bits := controlBitsOf b12 b13
      window_size, checksum, urgent_pointer }

/-- UNPACK (43_codec_unpack.md R95, R97). -/
def execUnpack (s : State) : Host.Outcome State Fault Refusal :=
  if s.buf.size < Config.hdrLen then
    .next (({ s with seg := drawSegment s.draws }.spend 9).answering .missingData .absent)
  else
    match readHeader s.buf with
    | some g => .next ({ s with seg := g }.answering .none .absent)
    | none => .fault .offsetOutsideBuffer

/-! ### The wire header as one value -/

/-- `Header(S)`: the 20 bytes of 30_encoding.md R53, each as that rule lists it. -/
def wireHeader (g : Segment) : List Byte :=
  [ g.source.extractLsb' 8 8, g.source.extractLsb' 0 8,
    g.destination.extractLsb' 8 8, g.destination.extractLsb' 0 8,
    g.sequence.extractLsb' 24 8, g.sequence.extractLsb' 16 8, g.sequence.extractLsb' 8 8, g.sequence.extractLsb' 0 8,
    g.acknowledgment.extractLsb' 24 8, g.acknowledgment.extractLsb' 16 8,
    g.acknowledgment.extractLsb' 8 8, g.acknowledgment.extractLsb' 0 8,
    0b0101#4 ++ 0b000#3 ++ g.control_bits.extractLsb' 8 1, g.control_bits.extractLsb' 0 8,
    g.window_size.extractLsb' 8 8, g.window_size.extractLsb' 0 8,
    0x00, 0x00,
    g.urgent_pointer.extractLsb' 8 8, g.urgent_pointer.extractLsb' 0 8 ]

/-- `Fields(b)`: the nine fields of 30_encoding.md R54, from the byte at each offset. -/
def wireFields (b : Nat → Byte) : Segment :=
  { source := b 0 ++ b 1
    destination := b 2 ++ b 3
    sequence := b 4 ++ b 5 ++ b 6 ++ b 7
    acknowledgment := b 8 ++ b 9 ++ b 10 ++ b 11
    data_offset := (b 12).extractLsb' 4 4
    control_bits := (b 12).extractLsb' 0 1 ++ b 13
    window_size := b 14 ++ b 15
    checksum := b 16 ++ b 17
    urgent_pointer := b 18 ++ b 19 }

/-- The bytes of a list by offset; 0 beyond its end. -/
def byteAt (bs : List Byte) (off : Nat) : Byte :=
  bs.getD off 0

end Sys2Proof.Machine
end

