-- ==== Sys2Proof/Machine/Mutator.lean ====
section
/-! DEFINITION. The Mutator Capability and MUTATE (44_mutator.md). -/

namespace Sys2Proof.Machine

/-- MUTATE with the callback attached: it is handed the context, SEG and the link-layer context, and SEG and the status
are what it hands back, whatever the status is (44_mutator.md R100, R101, R104). -/
def runCallback (ctx : MutCtx) (lctx : Option LCtx) (s : State) : State :=
  let c : MutatorCall := ⟨ctx, s.seg, lctx⟩
  { ({ s.afterCallback with seg := (s.callbackAnswer c).seg }.answering (s.callbackAnswer c).st .absent) with
    call := some c }

/-- MUTATE (44_mutator.md R100): without a callback, a no-op that answers `None`. -/
def execMutate (lctx : Option LCtx) (s : State) : Host.Outcome State Fault Refusal :=
  match s.mutator with
  | none => .next (s.answering .none .absent)
  | some ctx => .next (runCallback ctx lctx s)

end Sys2Proof.Machine
end

