-- ==== Sys2Proof/Machine/Parser.lean ====
section
/-! DEFINITION. The Port Parser and PARSE (40_port_parser.md). -/

namespace Sys2Proof.Machine

/-- '0' to '9': byte values 0x30 to 0x39 (40_port_parser.md R73; 30_encoding.md R56). -/
def isDigit (c : Byte) : Bool :=
  decide (0x30 ≤ c.toNat) && decide (c.toNat ≤ 0x39)

/-- The value of a digit: its byte minus 0x30 (30_encoding.md R56). -/
def digitValue (c : Byte) : Nat :=
  c.toNat - 0x30

/-- The loop of 40_port_parser.md R71, most significant digit first, on natural numbers (R74); none at a non-digit. -/
def accumulate (acc : Nat) : List Byte → Option Nat
  | [] => some acc
  | c :: cs => if isDigit c then accumulate (acc * 10 + digitValue c) cs else none

/-- `ParsePort` on the scanned bytes: the accumulator starts at 0, and the range check is on all of it
(40_port_parser.md R71, R75, R76). -/
def parseScanned (bs : List Byte) : ParseResult :=
  match accumulate 0 bs with
  | none => .badField
  | some acc => if Config.portMax < acc then .badField else .ok (BitVec.ofNat 16 acc)

/-- `ParsePort(TEXT, LEN)` (40_port_parser.md R71). -/
def parsePort (t : PortText) : ParseResult :=
  parseScanned (scannedText t)

/-- PARSE answers the parsed port and touches neither SEG nor BUF; on BadField VAL is a free value
(40_port_parser.md R70). -/
def execParse (t : PortText) (s : State) : Host.Outcome State Fault Refusal :=
  if textPresent t then
    match parsePort t with
    | .ok v => .next (s.answering .none (.port v))
    | .badField => .next ((s.spend 1).answering .badField (.port (Config.freeBits 16 s.draws)))
  else .refused (.notACommand (.shortText t))

end Sys2Proof.Machine
end

