-- ==== Sys2Proof/Machine/SegmentModel.lean ====
section
/-! DEFINITION. The commands on SEG alone: INIT, SETSRC, SETDST, RDF, WRF (41_segment_model.md). -/

namespace Sys2Proof.Machine

/-- The documented defaults (41_segment_model.md R80; 10_state.md R10). -/
def initSegment : Segment :=
  { source := 0, destination := 0, sequence := 0, acknowledgment := 0, data_offset := Config.doffFixed,
    control_bits := 0, window_size := 1, checksum := 0, urgent_pointer := 0 }

/-- INIT (41_segment_model.md R80). -/
def execInit (s : State) : Host.Outcome State Fault Refusal :=
  .next ({ s with seg := initSegment }.answering .none .absent)

/-- The shape SETSRC and SETDST share: `put` stores a value in the target field; on BadField that field, and no other, is
a free value (41_segment_model.md R81 to R83). -/
def setPort (put : Segment → Half → Segment) (t : PortText) (s : State) : Host.Outcome State Fault Refusal :=
  if textPresent t then
    match parsePort t with
    | .ok v => .next ({ s with seg := put s.seg v }.answering .none .absent)
    | .badField =>
      .next (({ s with seg := put s.seg (Config.freeBits 16 s.draws) }.spend 1).answering .badField .absent)
  else .refused (.notACommand (.shortText t))

/-- SETSRC (41_segment_model.md R81). -/
def execSetSrc (t : PortText) (s : State) : Host.Outcome State Fault Refusal :=
  setPort (fun g v => { g with source := v }) t s

/-- SETDST (41_segment_model.md R82). -/
def execSetDst (t : PortText) (s : State) : Host.Outcome State Fault Refusal :=
  setPort (fun g v => { g with destination := v }) t s

/-- RDF (41_segment_model.md R84). -/
def execRdf (f : Field) (s : State) : Host.Outcome State Fault Refusal :=
  .next (s.answering .none (.field (readField s.seg f)))

/-- WRF (41_segment_model.md R85); over-wide data is no command and nothing is truncated (30_encoding.md R62). -/
def execWrf (f : Field) (data : Word) (s : State) : Host.Outcome State Fault Refusal :=
  if fieldFits f data then .next ({ s with seg := writeField s.seg f data }.answering .none .absent)
  else .refused (.notACommand (.overWideData f data))

end Sys2Proof.Machine
end

