-- ==== Sys2Proof/Machine/Dispatch.lean ====
section
/-! DEFINITION. One arm per command (60_exceptions.md R110 gives the statuses each can answer). -/

namespace Sys2Proof.Machine

def exec (i : Instr) (s : State) : Host.Outcome State Fault Refusal :=
  match i with
  | .init => Sys2Proof.Machine.execInit s
  | .setSrc t => Sys2Proof.Machine.execSetSrc t s
  | .setDst t => Sys2Proof.Machine.execSetDst t s
  | .mutate lctx => Sys2Proof.Machine.execMutate lctx s
  | .pack => Sys2Proof.Machine.execPack s
  | .unpack => Sys2Proof.Machine.execUnpack s
  | .parse t => Sys2Proof.Machine.execParse t s
  | .rdf f => Sys2Proof.Machine.execRdf f s
  | .wrf f data => Sys2Proof.Machine.execWrf f data s

end Sys2Proof.Machine
end

