-- ==== Sys2Proof/Machine/HostPort.lean ====
section
/-! DEFINITION. How TSC reacts to what the host does: present a command, change the Buffer between commands, reset. -/

namespace Sys2Proof.Machine

/-- The host presents a command: it is decoded and performed; what is no command is refused (30_encoding.md R62, D21). -/
def perform (p : Presented) (s : State) : Host.Outcome State Fault Refusal :=
  match decode p with
  | .ok i => exec i s
  | .error e => .refused (.notACommand e)

/-- Reset: every field of SEG is a free value; the configuration and BUF are untouched; TSC is idle
(70_reset_and_hazards.md R130 to R132). -/
def hardReset (s : State) : State :=
  ({ s with seg := drawSegment s.draws }.spend 9).quiet

/-- Between two commands the Buffer comes to hold these bytes (70_reset_and_hazards.md R131, R134, R138; log 18). -/
def replaceBuffer (bytes : List Byte) (s : State) : State :=
  { s with buf := Memory.ofBytes bytes }.quiet

/-- The reaction to one input; `s` is the state in which that input has been taken off the queue. -/
def react (x : HostInput) (s : State) : Host.Outcome State Fault Refusal :=
  match x with
  | .present p => perform p s
  | .putBuffer bytes => .next (replaceBuffer bytes s)
  | .reset => .next (hardReset s)
  | .overlap _ _ => .refused .unsynchronisedUsers
  | .bufferRace _ => .refused .bufferRace

/-- The host has put an input at the head of the queue. -/
def State.presenting (s : State) (x : HostInput) : State :=
  { s with inputs := x :: s.inputs }

end Sys2Proof.Machine
end

