-- ==== Sys2Proof/Machine/Step.lean ====
section
/-! DEFINITION. One step: the oldest input of the host, or idle. -/

namespace Sys2Proof.Machine

/-- TSC has no program counter (10_state.md R15): a step takes the oldest input and reacts to it, atomically (20_memory.md
R43, R46). With no input TSC is idle and only its outputs fall quiet (70_reset_and_hazards.md R132; log 23). -/
def step (s : State) : Host.Outcome State Fault Refusal :=
  match s.inputs with
  | [] => .next s.quiet
  | x :: rest => react x { s with inputs := rest }

/-- The host presents the command of the opcode-table word `w` of `nbits` bits, ahead of every other input (log 1, log 2). -/
def State.withFetchWord (s : State) (nbits w : Nat) : State :=
  s.presenting (.present (tablePresented nbits w))

end Sys2Proof.Machine
end

