-- ==== Sys2Proof/Machine/Flags.lean ====
section
/-! DEFINITION. The nine control flags: their bit inside `SEG.control_bits` and their place on the wire. TSC computes no
flag and has no condition codes (10_state.md R17); these are protocol flags that it carries. -/

namespace Sys2Proof.Machine

/-- The flags of 10_state.md R11. -/
inductive ControlFlag where
  | NS
  | CWR
  | ECE
  | URG
  | ACK
  | PSH
  | RST
  | SYN
  | FIN
deriving DecidableEq, Repr, Inhabited

/-- The bit of a flag inside `SEG.control_bits` (10_state.md R11). -/
def flagBit : ControlFlag → Nat
  | .NS => 8
  | .CWR => 7
  | .ECE => 6
  | .URG => 5
  | .ACK => 4
  | .PSH => 3
  | .RST => 2
  | .SYN => 1
  | .FIN => 0

/-- The offset of the wire byte that carries a flag: NS in byte 12, the others in byte 13 (30_encoding.md R51, R52). -/
def flagWireOffset : ControlFlag → Nat
  | .NS => 12
  | .CWR | .ECE | .URG | .ACK | .PSH | .RST | .SYN | .FIN => 13

/-- The bit of a flag inside its wire byte (30_encoding.md R51, R52). -/
def flagWireBit : ControlFlag → Nat
  | .NS => 0
  | .CWR => 7
  | .ECE => 6
  | .URG => 5
  | .ACK => 4
  | .PSH => 3
  | .RST => 2
  | .SYN => 1
  | .FIN => 0

/-- The mask value of a flag (10_state.md R11). -/
def flagMask (f : ControlFlag) : BitVec 9 :=
  BitVec.twoPow 9 (flagBit f)

/-- The flag is in the set that `SEG.control_bits` holds. -/
def hasFlag (g : Segment) (f : ControlFlag) : Bool :=
  g.control_bits.getLsbD (flagBit f)

/-- Flag names joined by `|`, as the command text of 30_encoding.md R64 writes a value of `control_bits`. -/
def flagsValue (fs : List ControlFlag) : BitVec 9 :=
  fs.foldl (fun v f => v ||| flagMask f) 0

end Sys2Proof.Machine
end

