-- ==== Sys2Proof/Safety.lean ====
section
/-! DEFINITION. What counts as a good state and a safe run. -/

namespace Sys2Proof.Machine

/-- The Buffer has its canonical form: a finite byte sequence from the front on (10_state.md R21). Nothing else is
required of a state: every field fits its width by its type (10_state.md R10, R14). -/
def State.Inv (s : State) : Prop :=
  s.buf.wf = true

/-- The step just made did not answer a failure: it answered `None`, or it performed no command. After any other status
the host must not trust what the command wrote (60_exceptions.md R119; 70_reset_and_hazards.md R137). -/
def State.clean (s : State) : Bool :=
  match s.answer with
  | none => true
  | some a => decide (a.st = .none)

/-- A safe run of `k` steps: no fault, no refusal, and every command answered `None`; the state it ends in. -/
def safeRun : Nat → State → Option State
  | 0, s => some s
  | k + 1, s =>
    match step s with
    | .next t => if t.clean then safeRun k t else none
    | .fault _ => none
    | .refused _ => none

end Sys2Proof.Machine
end

