-- ==== Sys2Proof/Certificates/Slice0/Obligations.lean ====
section
/-! DEFINITION. The statements for the provers. Free values stand under existential quantifiers, so each statement holds
for every value they could have. -/

open Sys2Proof Sys2Proof.Machine

/-! ### Reset, idle, the step -/

/-- 70_reset_and_hazards.md section 1 (decision D9): after reset TSC is idle and nothing is answered. The model's choices:
the Buffer's canonical form, and that it is empty in `State.reset` (log 5), what an idle step does (log 23), the outputs in
State (log 3). Nothing is said of SEG, whose values in `State.reset` are a choice too (log 4). -/
def Obligations.ResetStateIsIdle : Prop :=
  State.reset.Inv ∧ State.reset.inputs = [] ∧ State.reset.answer = none ∧ State.reset.call = none ∧
  step State.reset = .next State.reset

/-- 70_reset_and_hazards.md section 1 (decision D9): a reset leaves SEG unspecified and touches neither the configuration
nor BUF; that it may come between any two commands (log 18), and that it clears the outputs (log 3), is the model's choice. -/
def Obligations.ResetSpoilsOnlySeg : Prop :=
  ∀ (s : State) (rest : List HostInput), s.inputs = .reset :: rest →
    ∃ g d, step s = .next { s with seg := g, inputs := rest, answer := none, call := none, draws := d }

/-- 60_exceptions.md section 2 (decision D19): no event arrives at TSC but a command. That a step without input answers a
next state is the model's choice (log 23). -/
def Obligations.IdleStepOnlyQuietsOutputs : Prop :=
  ∀ s : State, s.inputs = [] → step s = .next { s with answer := none, call := none }

/-- 10_state.md section 3 (decision D18): the host decides which command comes next, and a step is that command. The
queue of inputs (log 1) and the presentation of a table word (log 2) are the model's. -/
def Obligations.StepRunsThePresentedCommand : Prop :=
  (∀ (s : State) (p : Presented) (rest : List HostInput) (i : Instr),
    s.inputs = .present p :: rest → decode p = .ok i → step s = exec i { s with inputs := rest }) ∧
  (∀ (s : State) (n w : Nat) (i : Instr),
    decodeTableWord n w = some i → step (s.withFetchWord n w) = exec i s)

/-- 30_encoding.md section 4 and 60_exceptions.md section 9 (decisions D21, D26): what is no command is refused with the
decoder's verdict, and so are two users at once. -/
def Obligations.StepRefusesWhatIsNoCommand : Prop :=
  (∀ (s : State) (p : Presented) (rest : List HostInput) (e : DecodeError),
    s.inputs = .present p :: rest → decode p = .error e → step s = .refused (.notACommand e)) ∧
  (∀ (s : State) (p q : Presented) (rest : List HostInput),
    s.inputs = .overlap p q :: rest → step s = .refused .unsynchronisedUsers) ∧
  (∀ (s : State) (p : Presented) (rest : List HostInput),
    s.inputs = .bufferRace p :: rest → step s = .refused .bufferRace)

/-! ### Encodings -/

/-- Words written out from 30_encoding.md section 4 (decisions D4, D5): one per command. -/
def Obligations.WrittenOutWordsDecode : Prop :=
  decode ⟨0b0000_0000#8, ⟨[], 0⟩, none, 0⟩ = .ok .init ∧
  decode ⟨0b0000_0001#8, ⟨[0x38, 0x30], 2⟩, none, 0⟩ = .ok (.setSrc ⟨[0x38, 0x30], 2⟩) ∧
  decode ⟨0b0000_0010#8, ⟨[0x38, 0x30], 2⟩, none, 0⟩ = .ok (.setDst ⟨[0x38, 0x30], 2⟩) ∧
  decode ⟨0b0000_0011#8, ⟨[], 0⟩, some ⟨7⟩, 0⟩ = .ok (.mutate (some ⟨7⟩)) ∧
  decode ⟨0b0000_0100#8, ⟨[], 0⟩, none, 0⟩ = .ok .pack ∧
  decode ⟨0b0000_0101#8, ⟨[], 0⟩, none, 0⟩ = .ok .unpack ∧
  decode ⟨0b0000_0110#8, ⟨[], 0⟩, none, 0⟩ = .ok (.parse ⟨[], 0⟩) ∧
  decode ⟨0b0100_0111#8, ⟨[], 0⟩, none, 0⟩ = .ok (.rdf .data_offset) ∧
  decode ⟨0b0110_1000#8, ⟨[], 0⟩, none, 0x00000200⟩ = .ok (.wrf .window_size 0x200) ∧
  decode ⟨0b0100_1000#8, ⟨[], 0⟩, none, 0x00000010⟩ = .error (.overWideData .data_offset 0x10) ∧
  decode ⟨0b1001_0111#8, ⟨[], 0⟩, none, 0⟩ = .error (.unassignedSel 9)

/-- 30_encoding.md section 4 (decisions D4, D5): decoding the encoding of a command gives it back, with every operand. -/
def Obligations.DecodeInvertsEncode : Prop :=
  ∀ i : Instr, i.wf = true → decode (encode i) = .ok i

/-- 30_encoding.md sections 4 and 6 (decisions D4, D5, D11, D21, D25): exactly the 25 legal command words are accepted,
each with the operands it needs; that a text without its scanned bytes is rejected is the model's choice (log 12). -/
def Obligations.DecodeAcceptsExactlyLegalPresentations : Prop :=
  ∀ p : Presented, (∃ i, decode p = .ok i) ↔
    (p.cw ∈ ([0x00, 0x03, 0x04, 0x05] : List Byte)) ∨
    (p.cw ∈ ([0x01, 0x02, 0x06] : List Byte) ∧ min p.text.len 5 ≤ p.text.text.length) ∨
    (p.cw ∈ ([0x07, 0x17, 0x27, 0x37, 0x47, 0x57, 0x67, 0x77, 0x87] : List Byte)) ∨
    (p.cw ∈ ([0x08, 0x18, 0x68, 0x78, 0x88] : List Byte) ∧ p.data.toNat < 2 ^ 16) ∨
    (p.cw ∈ ([0x28, 0x38] : List Byte)) ∨
    (p.cw = 0x48 ∧ p.data.toNat < 2 ^ 4) ∨
    (p.cw = 0x58 ∧ p.data.toNat < 2 ^ 9)

/-- 30_encoding.md section 4 (decisions D4, D5): the match and mask of the opcode table tell the commands apart, and the
decoder and the encoder agree with them; what decodes is well formed and encodes to the same word. -/
def Obligations.OpcodeRowsTellCommandsApart : Prop :=
  (∀ cw : Byte, ∀ r₁ ∈ opcodeRows, ∀ r₂ ∈ opcodeRows,
    cw &&& r₁.mask = r₁.pattern → cw &&& r₂.mask = r₂.pattern → r₁ = r₂) ∧
  (∀ (p : Presented) (i : Instr), decode p = .ok i →
    i.wf = true ∧ (encode i).cw = p.cw ∧
    ∃ r ∈ opcodeRows, r.mnemonic = mnemonicOf i ∧ p.cw &&& r.mask = r.pattern)

/-- 30_encoding.md section 4, the status output (decisions D7, D28): the four kinds and the way back. -/
def Obligations.StatusOutputBitsRoundTrip : Prop :=
  (encodeStatus .none).1 = 0 ∧ (encodeStatus .badField).1 = 1 ∧ (encodeStatus .missingData).1 = 2 ∧
  (∀ e, encodeStatus (.foreign e) = (3, some e)) ∧
  (∀ st, decodeStatus (encodeStatus st).1 (encodeStatus st).2 = some st) ∧
  (∀ st ext, (∀ e, st ≠ .foreign e) → decodeStatus (encodeStatus st).1 ext = some st)

/-- 10_state.md section 2, the bits of `SEG.control_bits` (decision D6): the mask value of each flag, and a value written
as flag names joined (30_encoding.md section 5). -/
def Obligations.ControlFlagMaskValues : Prop :=
  [ControlFlag.NS, .CWR, .ECE, .URG, .ACK, .PSH, .RST, .SYN, .FIN].map flagMask =
    [0x100, 0x080, 0x040, 0x020, 0x010, 0x008, 0x004, 0x002, 0x001] ∧
  flagsValue [.SYN, .ACK] = 0x012 ∧
  (∀ (g : Segment) (f : ControlFlag), hasFlag g f = true ↔ g.control_bits &&& flagMask f = flagMask f)

/-! ### The Port Parser and PARSE -/

/-- 40_port_parser.md section 2, the whole parsing function: the positional decimal value of the first `min(LEN, 5)`
bytes, where all are digits and the value is at most 65535; otherwise BadField. It reads nothing else. For `LEN = 0` the
value 0 is decision D10 (log 13). -/
def Obligations.ParserReadsScannedDigitsAsDecimal : Prop :=
  ∀ t : PortText, min t.len 5 ≤ t.text.length →
    parsePort t =
      (if (∀ c ∈ t.text.take (min t.len 5), 0x30 ≤ c.toNat ∧ c.toNat ≤ 0x39) ∧
          Nat.ofDigits 10 ((t.text.take (min t.len 5)).map (fun c => c.toNat - 0x30)).reverse ≤ 65535 then
        .ok (BitVec.ofNat 16 (Nat.ofDigits 10 ((t.text.take (min t.len 5)).map (fun c => c.toNat - 0x30)).reverse))
      else .badField)

/-- R73: a byte outside 0x30 to 0x39 at any scanned position fails, whatever stands around it. -/
def Obligations.NonDigitAtScannedPositionFails : Prop :=
  ∀ (t : PortText) (i : Nat) (c : Byte), min t.len 5 ≤ t.text.length → i < min t.len 5 → t.text[i]? = some c →
    (c.toNat < 0x30 ∨ 0x39 < c.toNat) →
    parsePort t = .badField ∧
    (∀ s : State, ∃ u v, exec (.parse t) s = .next u ∧ u.answer = some ⟨.badField, .port v⟩) ∧
    (∀ s : State, ∃ u, exec (.setSrc t) s = .next u ∧ u.answer = some ⟨.badField, .absent⟩) ∧
    (∀ s : State, ∃ u, exec (.setDst t) s = .next u ∧ u.answer = some ⟨.badField, .absent⟩)

/-- R72: only the first five characters are parsed; what follows them is never read and over-long text is no error. The
commands that parse a text answer the same status for it as for `LEN = 5`, and the same next state when the status is None
(after BadField the unspecified values of the two runs are not compared). -/
def Obligations.ParserTruncatesToFiveCharacters : Prop :=
  (∀ (bs : List Byte) (n : Nat), 5 < n → parsePort ⟨bs, n⟩ = parsePort ⟨bs, 5⟩) ∧
  (∀ (bs tail₁ tail₂ : List Byte) (n : Nat), bs.length = 5 →
    parsePort ⟨bs ++ tail₁, n⟩ = parsePort ⟨bs ++ tail₂, n⟩) ∧
  (∀ (bs : List Byte) (n : Nat) (s : State), 5 ≤ bs.length → 5 < n →
    ∀ command ∈ ([.parse, .setSrc, .setDst] : List (PortText → Instr)),
      ∃ t u, exec (command ⟨bs, n⟩) s = .next t ∧ exec (command ⟨bs, 5⟩) s = .next u ∧
        u.answer.map Answer.st = t.answer.map Answer.st ∧
        ((∃ v, t.answer = some ⟨.none, v⟩) → u = t)) ∧
  parsePort ⟨[0x31, 0x32, 0x33, 0x34, 0x35, 0x36], 6⟩ = .ok 12345

/-- R75: a value above 65535 fails, and the comparison is on the full accumulator; any other value is the answer; exactly
the five-digit prefixes 65536 to 99999 fail so; 0 is valid. The empty text is left to EmptyPortTextIsZero. -/
def Obligations.ParserRangeCheckOnFullValue : Prop :=
  (∀ (t : PortText) (n : Nat), 1 ≤ t.len → accumulate 0 (t.text.take (min t.len 5)) = some n →
    parsePort t = if 65535 < n then .badField else .ok (BitVec.ofNat 16 n)) ∧
  (∀ n : Nat, n ≤ 99999 →
    parsePort ⟨[n / 10000, n / 1000 % 10, n / 100 % 10, n / 10 % 10, n % 10].map (fun d => BitVec.ofNat 8 (0x30 + d)), 5⟩ =
      (if 65535 < n then .badField else .ok (BitVec.ofNat 16 n))) ∧
  (∀ bs : List Byte, 1 ≤ bs.length → bs.length ≤ 4 → (∀ c ∈ bs, 0x30 ≤ c.toNat ∧ c.toNat ≤ 0x39) →
    ∃ v, parsePort ⟨bs, bs.length⟩ = .ok v) ∧
  parsePort ⟨[0x30], 1⟩ = .ok 0

/-- 40_port_parser.md section 2, arithmetic (derived there from R71 and R72): what at most five digits accumulate is at
most 99999 and fits 17 bits, so nothing wraps; 99999 is reached, and 16 bits do not hold it. -/
def Obligations.AccumulatorNeedsSeventeenBits : Prop :=
  (∀ (bs : List Byte) (v : Nat), bs.length ≤ 5 → accumulate 0 bs = some v → v ≤ 99999 ∧ v < 2 ^ 17) ∧
  ∃ (bs : List Byte) (v : Nat), bs.length = 5 ∧ accumulate 0 bs = some v ∧ v = 99999 ∧ 2 ^ 16 ≤ v

/-- 40_port_parser.md section 2, empty text (decision D10; log 13): 0, and a setter stores 0. -/
def Obligations.EmptyPortTextIsZero : Prop :=
  (∀ bs : List Byte, parsePort ⟨bs, 0⟩ = .ok 0) ∧
  (∀ (bs : List Byte) (s : State), exec (.setSrc ⟨bs, 0⟩) s =
    .next { s with seg := { s.seg with source := 0 }, answer := some ⟨.none, .absent⟩, call := none })

/-- 40_port_parser.md section 3 (decision D24): PARSE answers the port, or BadField with an unspecified value; it changes
nothing but its own answer. -/
def Obligations.ParseAnswersPortOrBadField : Prop :=
  ∀ (t : PortText) (s : State), min t.len 5 ≤ t.text.length →
    (∀ v, parsePort t = .ok v →
      exec (.parse t) s = .next { s with answer := some ⟨.none, .port v⟩, call := none }) ∧
    (parsePort t = .badField →
      ∃ v d, exec (.parse t) s = .next { s with answer := some ⟨.badField, .port v⟩, call := none, draws := d })

/-- 41_segment_model.md section 4 (derived there): the setters accept exactly what PARSE accepts, and store what it
answers. -/
def Obligations.SettersAgreeWithParse : Prop :=
  ∀ (t : PortText) (s : State),
    (∀ v, (∃ u, exec (.parse t) s = .next u ∧ u.answer = some ⟨.none, .port v⟩) ↔
      (∃ u, exec (.setSrc t) s = .next u ∧ u.answer = some ⟨.none, .absent⟩ ∧ u.seg.source = v)) ∧
    (∀ v, (∃ u, exec (.parse t) s = .next u ∧ u.answer = some ⟨.none, .port v⟩) ↔
      (∃ u, exec (.setDst t) s = .next u ∧ u.answer = some ⟨.none, .absent⟩ ∧ u.seg.destination = v)) ∧
    ((∃ u v, exec (.parse t) s = .next u ∧ u.answer = some ⟨.badField, .port v⟩) ↔
      (∃ u, exec (.setSrc t) s = .next u ∧ u.answer = some ⟨.badField, .absent⟩)) ∧
    ((∃ u v, exec (.parse t) s = .next u ∧ u.answer = some ⟨.badField, .port v⟩) ↔
      (∃ u, exec (.setDst t) s = .next u ∧ u.answer = some ⟨.badField, .absent⟩))

/-! ### The Segment Model -/

/-- R80: INIT sets the nine defaults, answers None, reads nothing of SEG and changes nothing
else. -/
def Obligations.InitLoadsDefaults : Prop :=
  (∀ s : State, exec .init s = .next { s with
    seg := { source := 0, destination := 0, sequence := 0, acknowledgment := 0, data_offset := 5,
             control_bits := 0, window_size := 1, checksum := 0, urgent_pointer := 0 },
    answer := some ⟨.none, .absent⟩, call := none }) ∧
  (∀ (s : State) (g : Segment), exec .init { s with seg := g } = exec .init s) ∧
  (∀ s t : State, exec .init s = .next t → exec .init t = .next t)

/-- R86: after INIT the nine RDFs answer 0, 0, 0, 0, 5, 0, 1, 0, 0 in selector order. -/
def Obligations.DefaultsReadBack : Prop :=
  ∀ s : State, ∃ t, exec .init s = .next t ∧
    t.seg = { source := 0, destination := 0, sequence := 0, acknowledgment := 0, data_offset := 5,
              control_bits := 0, window_size := 1, checksum := 0, urgent_pointer := 0 } ∧
    ∀ fv ∈ ([(.source, 0), (.destination, 0), (.sequence, 0), (.acknowledgment, 0), (.data_offset, 5),
             (.control_bits, 0), (.window_size, 1), (.checksum, 0), (.urgent_pointer, 0)] : List (Field × Word)),
      ∃ u, exec (.rdf fv.1) t = .next u ∧ u.answer = some ⟨.none, .field fv.2⟩

/-- 41_segment_model.md section 2, SETSRC (the extent of the damage is decision D12; log 14): the parsed port goes to
`source`; on BadField `source`, and nothing else, is unspecified. -/
def Obligations.SetSrcStoresOrSpoilsSource : Prop :=
  ∀ (t : PortText) (s : State), min t.len 5 ≤ t.text.length →
    (∀ v, parsePort t = .ok v → exec (.setSrc t) s =
      .next { s with seg := { s.seg with source := v }, answer := some ⟨.none, .absent⟩, call := none }) ∧
    (parsePort t = .badField → ∃ v d, exec (.setSrc t) s =
      .next { s with seg := { s.seg with source := v }, answer := some ⟨.badField, .absent⟩, call := none, draws := d })

/-- 41_segment_model.md section 2, SETDST (the extent of the damage is decision D12; log 14). -/
def Obligations.SetDstStoresOrSpoilsDestination : Prop :=
  ∀ (t : PortText) (s : State), min t.len 5 ≤ t.text.length →
    (∀ v, parsePort t = .ok v → exec (.setDst t) s =
      .next { s with seg := { s.seg with destination := v }, answer := some ⟨.none, .absent⟩, call := none }) ∧
    (parsePort t = .badField → ∃ v d, exec (.setDst t) s =
      .next { s with seg := { s.seg with destination := v }, answer := some ⟨.badField, .absent⟩, call := none,
                     draws := d })

/-- 41_segment_model.md section 3, RDF (decision D3): the field's value, zero-extended to 32 bits; nothing is written. -/
def Obligations.RdfAnswersZeroExtendedField : Prop :=
  ∀ s : State, ∀ fv ∈ ([(.source, s.seg.source.toNat), (.destination, s.seg.destination.toNat),
      (.sequence, s.seg.sequence.toNat), (.acknowledgment, s.seg.acknowledgment.toNat),
      (.data_offset, s.seg.data_offset.toNat), (.control_bits, s.seg.control_bits.toNat),
      (.window_size, s.seg.window_size.toNat), (.checksum, s.seg.checksum.toNat),
      (.urgent_pointer, s.seg.urgent_pointer.toNat)] : List (Field × Nat)),
    ∃ v : Word, v.toNat = fv.2 ∧
      exec (.rdf fv.1) s = .next { s with answer := some ⟨.none, .field v⟩, call := none }

/-- 41_segment_model.md section 3, WRF (decisions D3, D25): `DATA` that fits goes to the selected field, and to no other
state. -/
def Obligations.WrfWritesTheSelectedField : Prop :=
  ∀ (s : State) (data : Word),
    let done (g : Segment) : Host.Outcome State Fault Refusal :=
      .next { s with seg := g, answer := some ⟨.none, .absent⟩, call := none }
    (data.toNat < 2 ^ 16 → exec (.wrf .source data) s = done { s.seg with source := data.extractLsb' 0 16 }) ∧
    (data.toNat < 2 ^ 16 → exec (.wrf .destination data) s = done { s.seg with destination := data.extractLsb' 0 16 }) ∧
    (exec (.wrf .sequence data) s = done { s.seg with sequence := data }) ∧
    (exec (.wrf .acknowledgment data) s = done { s.seg with acknowledgment := data }) ∧
    (data.toNat < 2 ^ 4 → exec (.wrf .data_offset data) s = done { s.seg with data_offset := data.extractLsb' 0 4 }) ∧
    (data.toNat < 2 ^ 9 → exec (.wrf .control_bits data) s = done { s.seg with control_bits := data.extractLsb' 0 9 }) ∧
    (data.toNat < 2 ^ 16 → exec (.wrf .window_size data) s = done { s.seg with window_size := data.extractLsb' 0 16 }) ∧
    (data.toNat < 2 ^ 16 → exec (.wrf .checksum data) s = done { s.seg with checksum := data.extractLsb' 0 16 }) ∧
    (data.toNat < 2 ^ 16 →
      exec (.wrf .urgent_pointer data) s = done { s.seg with urgent_pointer := data.extractLsb' 0 16 })

/-- 41_segment_model.md section 3 (decisions D3, D25): what WRF wrote RDF answers, and every other field is as before. -/
def Obligations.WrfReadBackAndFieldsApart : Prop :=
  ∀ (f : Field) (data : Word) (s t : State), exec (.wrf f data) s = .next t →
    (∃ u, exec (.rdf f) t = .next u ∧ u.answer = some ⟨.none, .field data⟩) ∧
    ∀ g, g ≠ f → readField t.seg g = readField s.seg g

/-- 30_encoding.md section 4 (decisions D21, D25): over-wide `DATA` is refused by the meaning too; nothing is truncated.
That a text without its scanned bytes, which decision D11 says are there, is refused is the model's choice (log 12). -/
def Obligations.IllFormedCommandsAreRefused : Prop :=
  ∀ (i : Instr) (s : State), i.wf = false → ∃ e, exec i s = .refused (.notACommand e)

/-! ### The Buffer -/

/-- R37: `MemRead` joins bytes with the lowest offset the most significant (one byte is `Memory.read` itself), and UNPACK
reads its multi-byte fields so. -/
def Obligations.BufferReadsAreBigEndian : Prop :=
  (∀ (m : Memory) (off : Nat) (a b : Byte), m.read off = some a → m.read (off + 1) = some b →
    ∃ v, m.read16 off = some v ∧ v.toNat = a.toNat * 256 + b.toNat) ∧
  (∀ (m : Memory) (off : Nat) (a b c d : Byte), m.read off = some a → m.read (off + 1) = some b →
    m.read (off + 2) = some c → m.read (off + 3) = some d →
    ∃ v, m.read32 off = some v ∧ v.toNat = a.toNat * 256 ^ 3 + b.toNat * 256 ^ 2 + c.toNat * 256 + d.toNat) ∧
  (∀ (s : State) (b : Nat → Byte), 20 ≤ s.buf.size → (∀ k, k < 20 → s.buf.read k = some (b k)) →
    ∃ t, exec .unpack s = .next t ∧
      t.seg.source.toNat = (b 0).toNat * 256 + (b 1).toNat ∧
      t.seg.destination.toNat = (b 2).toNat * 256 + (b 3).toNat ∧
      t.seg.sequence.toNat =
        (b 4).toNat * 256 ^ 3 + (b 5).toNat * 256 ^ 2 + (b 6).toNat * 256 + (b 7).toNat ∧
      t.seg.acknowledgment.toNat =
        (b 8).toNat * 256 ^ 3 + (b 9).toNat * 256 ^ 2 + (b 10).toNat * 256 + (b 11).toNat ∧
      t.seg.window_size.toNat = (b 14).toNat * 256 + (b 15).toNat ∧
      t.seg.checksum.toNat = (b 16).toNat * 256 + (b 17).toNat ∧
      t.seg.urgent_pointer.toNat = (b 18).toNat * 256 + (b 19).toNat)

/-- R38: `MemWrite` puts the slice `v[8(n-i)-1 : 8(n-1-i)]` at offset `off+i` and touches no other offset, and PACK writes
its multi-byte fields so. -/
def Obligations.BufferWritesAreBigEndian : Prop :=
  (∀ (m : Memory) (off : Nat) (v : Byte), (m.read off).isSome = true →
    (m.write off v).read off = some v ∧ ∀ k, k ≠ off → (m.write off v).read k = m.read k) ∧
  (∀ (m : Memory) (off : Nat) (v : Half), (∀ i, i < 2 → (m.read (off + i)).isSome = true) →
    (∀ i, i < 2 → (m.write16 off v).read (off + i) = some (v.extractLsb' (8 * (1 - i)) 8)) ∧
    ∀ k, k < off ∨ off + 2 ≤ k → (m.write16 off v).read k = m.read k) ∧
  (∀ (m : Memory) (off : Nat) (v : Word), (∀ i, i < 4 → (m.read (off + i)).isSome = true) →
    (∀ i, i < 4 → (m.write32 off v).read (off + i) = some (v.extractLsb' (8 * (3 - i)) 8)) ∧
    ∀ k, k < off ∨ off + 4 ≤ k → (m.write32 off v).read k = m.read k) ∧
  (((Memory.ofBytes (List.replicate 8 0)).write32 4 0x12345678).bytes = [0, 0, 0, 0, 0x12, 0x34, 0x56, 0x78]) ∧
  (∀ (s : State) (rest : List ReserveAnswer), s.reserves = .ok :: rest → ∃ t, exec .pack s = .next t ∧
    (∀ i, i < 2 → t.buf.read i = some (s.seg.source.extractLsb' (8 * (1 - i)) 8)) ∧
    (∀ i, i < 2 → t.buf.read (2 + i) = some (s.seg.destination.extractLsb' (8 * (1 - i)) 8)) ∧
    (∀ i, i < 4 → t.buf.read (4 + i) = some (s.seg.sequence.extractLsb' (8 * (3 - i)) 8)) ∧
    (∀ i, i < 4 → t.buf.read (8 + i) = some (s.seg.acknowledgment.extractLsb' (8 * (3 - i)) 8)) ∧
    (∀ i, i < 2 → t.buf.read (14 + i) = some (s.seg.window_size.extractLsb' (8 * (1 - i)) 8)) ∧
    (∀ i, i < 2 → t.buf.read (18 + i) = some (s.seg.urgent_pointer.extractLsb' (8 * (1 - i)) 8)))

/-- 10_state.md section 7, the Buffer is a finite byte sequence (its canonical form is the model's, log 5): Buffers of
canonical form that read alike are equal. -/
def Obligations.EqualReadsAreEqualBuffers : Prop :=
  ∀ m n : Memory, m.wf = true → n.wf = true → (∀ off, m.read off = n.read off) → m = n

/-! ### PACK -/

/-- 42_codec_pack.md section 2, "in one line": on success PACK, done as its ten field writes, leaves
`BUF' = Header(SEG) ++ BUF` and `SEG' = SEG with data_offset = 5`, and changes nothing else (choices: `SEG.checksum` is
kept, D13, log 15; the reserved bits of byte 12 are zero, D15, log 17; the listed answer of the Buffer, log 8). -/
def Obligations.PackPrependsWireHeader : Prop :=
  ∀ (s : State) (rest : List ReserveAnswer), s.Inv → s.reserves = .ok :: rest →
    ∃ d, exec .pack s = .next { s with
      buf := Memory.ofBytes (wireHeader s.seg ++ s.buf.bytes)
      seg := { s.seg with data_offset := 5 }
      reserves := rest
      answer := some ⟨.none, .absent⟩
      call := none
      draws := d }

/-- 42_codec_pack.md section 2: whatever the Buffer answers, listed or free, PACK answers: None and the header prepended,
or a status that is not None with `data_offset` and BUF unspecified and the other eight fields unchanged. Choices: on
success `SEG.checksum` is kept (D13, log 15) and the reserved bits of byte 12 are zero (D15, log 17); after a failure the
eight fields are kept (D14, log 16). -/
def Obligations.PackAlwaysAnswers : Prop :=
  ∀ s : State, s.Inv →
    (∃ rs d, exec .pack s = .next { s with
      buf := Memory.ofBytes (wireHeader s.seg ++ s.buf.bytes)
      seg := { s.seg with data_offset := 5 }
      reserves := rs, answer := some ⟨.none, .absent⟩, call := none, draws := d }) ∨
    (∃ st after v rs d, st ≠ .none ∧ exec .pack s = .next { s with
      buf := Memory.ofBytes after
      seg := { s.seg with data_offset := v }
      reserves := rs, answer := some ⟨st, .absent⟩, call := none, draws := d })

/-- 42_codec_pack.md section 2, a failing PACK (decision D14, log 16): the Buffer's error is the status, unchanged. -/
def Obligations.FailingPackPassesBufferError : Prop :=
  ∀ (s : State) (e : BufError) (after : List Byte) (rest : List ReserveAnswer),
    s.reserves = .fail e after :: rest →
    ∃ v d, exec .pack s = .next { s with
      buf := Memory.ofBytes after
      seg := { s.seg with data_offset := v }
      reserves := rest
      answer := some ⟨(match e with | .badField => .badField | .missingData => .missingData | .foreign x => .foreign x),
                      .absent⟩
      call := none
      draws := d }

/-- The frame of PACK on the Buffer, byte by byte (20_memory.md section 2, decision D16; 70_reset_and_hazards.md section
3): the 20 stored bytes are the header's (the reserved bits of byte 12 zero: decision D15, log 17), and the byte that stood
at offset k stands at offset k + 20, in any Buffer. -/
def Obligations.PackMovesOldBytesByTwenty : Prop :=
  ∀ s t : State, exec .pack s = .next t → t.answer = some ⟨.none, .absent⟩ →
    t.buf.size = s.buf.size + 20 ∧
    (∀ k, k < 20 → t.buf.read k = (wireHeader s.seg)[k]?) ∧
    (∀ k, t.buf.read (k + 20) = s.buf.read k)

/-- R91: `data_offset` is 5 after INIT and after a successful PACK, whatever it was, and RDF answers 5; bytes 16 and 17 on
the wire are zero. -/
def Obligations.PackForcesDataOffsetFive : Prop :=
  (∀ s : State, ∃ t, exec .init s = .next t ∧ t.seg.data_offset = 5) ∧
  (∀ (s : State) (rest : List ReserveAnswer), s.reserves = .ok :: rest →
    ∃ t, exec .pack s = .next t ∧ t.answer = some ⟨.none, .absent⟩) ∧
  (∀ s t : State, exec .pack s = .next t → t.answer = some ⟨.none, .absent⟩ →
    t.seg.data_offset = 5 ∧
    (∃ u, exec (.rdf .data_offset) t = .next u ∧ u.answer = some ⟨.none, .field 5⟩) ∧
    t.buf.read 16 = some 0 ∧ t.buf.read 17 = some 0)

/-- 10_state.md section 2, the table of reads (derived there): PACK does not read `SEG.data_offset` or `SEG.checksum`. That
it keeps `SEG.checksum`, so that the two next states still differ there, is a choice (decision D13, log 15). -/
def Obligations.PackIgnoresDataOffsetAndChecksum : Prop :=
  ∀ (s : State) (rest : List ReserveAnswer) (o : BitVec 4) (c : BitVec 16), s.reserves = .ok :: rest →
    ∃ t, exec .pack s = .next t ∧
      exec .pack { s with seg := { s.seg with data_offset := o, checksum := c } } =
        .next { t with seg := { t.seg with checksum := c } }

/-- R52: each flag at its bit of byte 13, on encode and on decode alike; the byte's value when only that flag is set. The
flag's bit inside SEG is `hasFlag` (decision D6). -/
def Obligations.ControlFlagsOnTheWire : Prop :=
  ∀ fj ∈ ([(.CWR, 7), (.ECE, 6), (.URG, 5), (.ACK, 4), (.PSH, 3), (.RST, 2), (.SYN, 1), (.FIN, 0)] :
      List (ControlFlag × Nat)),
    (∀ s t : State, exec .pack s = .next t → t.answer = some ⟨.none, .absent⟩ →
      ∃ b, t.buf.read 13 = some b ∧ b.getLsbD fj.2 = hasFlag s.seg fj.1 ∧
        (s.seg.control_bits = flagMask fj.1 → b.toNat = 2 ^ fj.2)) ∧
    (∀ (s t : State) (b : Byte), exec .unpack s = .next t → t.answer = some ⟨.none, .absent⟩ →
      s.buf.read 13 = some b → hasFlag t.seg fj.1 = b.getLsbD fj.2)

/-- 30_encoding.md sections 1 and 3, byte 12 (the reserved bits are decision D15, log 17): on encode the nibble 5, zeros
in bits 3 to 1 and NS in bit 0; on decode the nibble as found, NS from bit 0, and the reserved bits ignored. -/
def Obligations.Byte12OnEncodeAndDecode : Prop :=
  (∀ s t : State, exec .pack s = .next t → t.answer = some ⟨.none, .absent⟩ →
    t.buf.read 12 = some (if hasFlag s.seg .NS then 0x51 else 0x50)) ∧
  (∀ (s t : State) (b : Byte), exec .unpack s = .next t → t.answer = some ⟨.none, .absent⟩ → s.buf.read 12 = some b →
    t.seg.data_offset.toNat = b.toNat / 16 ∧ hasFlag t.seg .NS = b.getLsbD 0) ∧
  (∀ (s : State) (before after : List Byte) (b c : Byte), before.length = 12 → 7 ≤ after.length →
    b &&& 0xF1 = c &&& 0xF1 →
    ∃ t, exec .unpack { s with buf := Memory.ofBytes (before ++ b :: after) } = .next t ∧
      exec .unpack { s with buf := Memory.ofBytes (before ++ c :: after) } =
        .next { t with buf := Memory.ofBytes (before ++ c :: after) })

/-! ### UNPACK -/

/-- R95, R54: with at least 20 bytes in the Buffer, UNPACK, done as its ten field reads, loads the nine fields, each as
R54 assembles it, answers None and changes nothing else; with fewer it answers MissingData and SEG is unspecified. -/
def Obligations.UnpackLoadsWireFields : Prop :=
  (∀ s : State, s.Inv → 20 ≤ s.buf.size →
    let b := byteAt s.buf.bytes
    exec .unpack s = .next { s with
      seg := { source := b 0 ++ b 1
               destination := b 2 ++ b 3
               sequence := b 4 ++ b 5 ++ b 6 ++ b 7
               acknowledgment := b 8 ++ b 9 ++ b 10 ++ b 11
               data_offset := (b 12).extractLsb' 4 4
               control_bits := (b 12).extractLsb' 0 1 ++ b 13
               window_size := b 14 ++ b 15
               checksum := b 16 ++ b 17
               urgent_pointer := b 18 ++ b 19 }
      answer := some ⟨.none, .absent⟩
      call := none }) ∧
  (∀ s : State, s.buf.size < 20 → ∃ g d, exec .unpack s =
    .next { s with seg := g, answer := some ⟨.missingData, .absent⟩, call := none, draws := d })

/-- 43_codec_unpack.md section 2: MissingData exactly when the Buffer holds fewer than 20 bytes; otherwise None. -/
def Obligations.UnpackFailsExactlyWhenShort : Prop :=
  ∀ s : State, s.Inv → ∃ t, exec .unpack s = .next t ∧
    (s.buf.size < 20 → t.answer = some ⟨.missingData, .absent⟩) ∧
    (20 ≤ s.buf.size → t.answer = some ⟨.none, .absent⟩)

/-- R97: after MissingData all of SEG is unspecified, nothing else changes, and BUF is unchanged by a failing UNPACK as by
a succeeding one. -/
def Obligations.FailingUnpackLeavesBuffer : Prop :=
  (∀ s : State, s.buf.size < 20 → ∃ g d, exec .unpack s =
    .next { s with seg := g, answer := some ⟨.missingData, .absent⟩, call := none, draws := d }) ∧
  (∀ s t : State, exec .unpack s = .next t → t.buf = s.buf)

/-- R96: every combination of 20 bytes is accepted; the data offset and the checksum are as found, and a following
successful PACK writes 5 and 0 all the same. -/
def Obligations.UnpackValidatesOnlyLength : Prop :=
  ∀ (s : State) (bs : List Byte) (rest : List ReserveAnswer), 20 ≤ bs.length → s.buf = Memory.ofBytes bs →
    s.reserves = .ok :: rest →
    ∃ t u, exec .unpack s = .next t ∧ t.answer = some ⟨.none, .absent⟩ ∧
      t.seg.data_offset = (byteAt bs 12).extractLsb' 4 4 ∧
      t.seg.checksum = byteAt bs 16 ++ byteAt bs 17 ∧
      exec .pack t = .next u ∧ u.answer = some ⟨.none, .absent⟩ ∧
      (∃ b, u.buf.read 12 = some b ∧ b.extractLsb' 4 4 = 5) ∧
      u.buf.read 16 = some 0 ∧ u.buf.read 17 = some 0

/-- R58: every 20 bytes are accepted, whatever stands behind them; the data offset and the checksum are stored as found;
the bytes at offsets 20 and up stay where they are and make no difference. -/
def Obligations.UnpackReadsOnlyTheFrontTwenty : Prop :=
  ∀ (s : State) (front tail₁ tail₂ : List Byte), front.length = 20 →
    ∃ t, exec .unpack { s with buf := Memory.ofBytes (front ++ tail₁) } = .next t ∧
      t.answer = some ⟨.none, .absent⟩ ∧
      t.seg.data_offset = (byteAt front 12).extractLsb' 4 4 ∧
      t.seg.checksum = byteAt front 16 ++ byteAt front 17 ∧
      t.buf = Memory.ofBytes (front ++ tail₁) ∧
      exec .unpack { s with buf := Memory.ofBytes (front ++ tail₂) } =
        .next { t with buf := Memory.ofBytes (front ++ tail₂) }

/-- R98: from any SEG and any Buffer, PACK (Reserve ok, as a listed answer, log 8) then UNPACK answers None twice and gives
SEG back, but for `data_offset = 5` and `checksum = 0`; every flag comes back. -/
def Obligations.PackThenUnpackRoundTrip : Prop :=
  ∀ (s : State) (rest : List ReserveAnswer), s.reserves = .ok :: rest →
    ∃ t u, exec .pack s = .next t ∧ t.answer = some ⟨.none, .absent⟩ ∧
      exec .unpack t = .next u ∧ u.answer = some ⟨.none, .absent⟩ ∧
      u.seg = { s.seg with data_offset := 5, checksum := 0 } ∧
      ∀ f, hasFlag u.seg f = hasFlag s.seg f

/-- 30_encoding.md section 1, the laws derived there from the two assemblies: `Fields(Header(S))` and, the other way, the
header of decoded fields, at every offset (the reserved bits of byte 12 zero: decision D15, log 17). -/
def Obligations.HeaderAndFieldsInvertEachOther : Prop :=
  (∀ g : Segment, wireFields (byteAt (wireHeader g)) = { g with data_offset := 5, checksum := 0 }) ∧
  (∀ (b : Nat → Byte) (k : Nat), k < 20 →
    byteAt (wireHeader (wireFields b)) k =
      (if k = 12 then 0x50 ||| (b 12 &&& 0x01) else if k = 16 ∨ k = 17 then 0 else b k))

/-- 20_memory.md section 5, side effects (derived there): two UNPACKs in a row give the same SEG as one and leave BUF
alone. -/
def Obligations.UnpackTwiceIsUnpackOnce : Prop :=
  ∀ s t : State, exec .unpack s = .next t → t.answer = some ⟨.none, .absent⟩ →
    t.buf = s.buf ∧ exec .unpack t = .next t

/-! ### MUTATE -/

/-- 44_mutator.md section 2: with no callback attached MUTATE is a no-op that answers None, whatever the context
operand. -/
def Obligations.MutateWithoutCallbackIsNoOp : Prop :=
  ∀ (l : Option LCtx) (s : State), s.mutator = none →
    exec (.mutate l) s = .next { s with answer := some ⟨.none, .absent⟩, call := none }

/-- 44_mutator.md sections 1 and 2: the callback is handed the context, SEG and the operand; SEG and the status are what it
hands back, whatever the status; nothing else of TSC or BUF changes (decisions D17, D27; log 9). -/
def Obligations.MutateTakesCallbackAnswer : Prop :=
  ∀ (l : Option LCtx) (s : State) (ctx : MutCtx), s.mutator = some ctx →
    (∃ g st cs d, exec (.mutate l) s = .next { s with
      seg := g, callbacks := cs, answer := some ⟨st, .absent⟩, call := some ⟨ctx, s.seg, l⟩, draws := d }) ∧
    (∀ (a : CallbackAnswer) (rest : List CallbackAnswer), s.callbacks = a :: rest →
      exec (.mutate l) s = .next { s with
        seg := a.seg, callbacks := rest, answer := some ⟨a.st, .absent⟩, call := some ⟨ctx, s.seg, l⟩ })

/-- 44_mutator.md section 2, who invokes the callback: no command but MUTATE does, PACK and UNPACK included. That MUTATE
answers a next state from every state rests on the assumption that the callback returns (decision D17, log 9). -/
def Obligations.OnlyMutateInvokesCallback : Prop :=
  (∀ (l : Option LCtx) (s : State), ∃ t, exec (.mutate l) s = .next t) ∧
  (∀ (i : Instr) (s t : State), (∀ l, i ≠ .mutate l) → exec i s = .next t →
    t.call = none ∧ t.callbacks = s.callbacks)

/-! ### All commands -/

/-- 70_reset_and_hazards.md section 4 (decision D1): every command answers, from every state with a Buffer of canonical
form (the model's, log 5). That MUTATE does rests on the assumption that the callback returns (decision D17, log 9). -/
def Obligations.WellFormedCommandsComplete : Prop :=
  ∀ (i : Instr) (s : State), i.wf = true → s.Inv → ∃ t a, exec i s = .next t ∧ t.answer = some a

/-- 10_state.md section 7 (canonical form is the model's, log 5): every step, reset and changes of the Buffer included,
keeps the Buffer a finite byte sequence from the front on. -/
def Obligations.StepKeepsBufferCanonical : Prop :=
  ∀ s t : State, s.Inv → step s = .next t → t.Inv

/-- 20_memory.md section 7 (derived there): no rule reads or writes outside the Buffer, so from a Buffer of canonical form
no step faults (log 20). -/
def Obligations.StepNeverFaultsOnCanonicalBuffer : Prop :=
  ∀ (s : State) (r : Fault), s.Inv → step s ≠ .fault r

/-- 10_state.md section 5 (decision D17, log 6): no step, reset included, changes `MUT_PRESENT` or `MUT_CTX`. -/
def Obligations.ConfigurationIsConstant : Prop :=
  ∀ s t : State, step s = .next t → t.mutator = s.mutator

/-- The frame of every command outside SEG and BUF (10_state.md sections 3 and 5, decisions D17, D18): the configuration
and what the host does next are never changed; only PACK takes an answer of the Buffer, only MUTATE one of the
callback. The lists of coming inputs and answers are the model's (log 1, log 8, log 9). -/
def Obligations.EnvironmentFrame : Prop :=
  ∀ (i : Instr) (s t : State), exec i s = .next t →
    t.mutator = s.mutator ∧ t.inputs = s.inputs ∧
    (i ≠ .pack → t.reserves = s.reserves) ∧
    ((∀ l, i ≠ .mutate l) → t.callbacks = s.callbacks)

/-- The frame of every command on SEG (10_state.md section 2, the table derived there; 60_exceptions.md section 4): every
field but those the command writes is unchanged. INIT and UNPACK write all nine. Choices: a failing setter spoils its one
field (D12, log 14), PACK keeps `SEG.checksum` (D13, log 15), a failing PACK keeps the other eight fields (D14, log 16).
MUTATE with a callback is MutateTakesCallbackAnswer, a short UNPACK is UnpackLoadsWireFields. -/
def Obligations.SegmentFrame : Prop :=
  ∀ (i : Instr) (s t : State), exec i s = .next t →
    match i with
    | .init => t.seg = initSegment
    | .setSrc _ => ∃ v, t.seg = { s.seg with source := v }
    | .setDst _ => ∃ v, t.seg = { s.seg with destination := v }
    | .mutate _ => s.mutator = none → t.seg = s.seg
    | .pack => ∃ v, t.seg = { s.seg with data_offset := v }
    | .unpack => 20 ≤ s.buf.size → readHeader s.buf = some t.seg
    | .parse _ => t.seg = s.seg
    | .rdf _ => t.seg = s.seg
    | .wrf f _ => ∀ g, g ≠ f → readField t.seg g = readField s.seg g

/-- The frame of every command but PACK on the Buffer (20_memory.md section 5; 10_state.md section 7): no byte and no size
changes. PACK's own frame is PackMovesOldBytesByTwenty. That MUTATE's callback leaves the Buffer alone is an assumption
(decision D17, log 9). -/
def Obligations.BufferFrame : Prop :=
  ∀ (i : Instr) (s t : State), i ≠ .pack → exec i s = .next t →
    t.buf.size = s.buf.size ∧ ∀ off, t.buf.read off = s.buf.read off

/-- 60_exceptions.md section 1 (decision D7): the statuses and the data value each command can answer. -/
def Obligations.StatusesOfEachCommand : Prop :=
  ∀ (i : Instr) (s t : State), exec i s = .next t →
    match i with
    | .init => t.answer = some ⟨.none, .absent⟩
    | .setSrc _ => t.answer = some ⟨.none, .absent⟩ ∨ t.answer = some ⟨.badField, .absent⟩
    | .setDst _ => t.answer = some ⟨.none, .absent⟩ ∨ t.answer = some ⟨.badField, .absent⟩
    | .mutate _ => ∃ st, t.answer = some ⟨st, .absent⟩ ∧ (s.mutator = none → st = .none)
    | .pack => (s.reserveAnswer 20 = .ok ∧ t.answer = some ⟨.none, .absent⟩) ∨
        ∃ e after, s.reserveAnswer 20 = .fail e after ∧ t.answer = some ⟨statusOfError e, .absent⟩ ∧
          statusOfError e ≠ .none
    | .unpack => t.answer = some ⟨.none, .absent⟩ ∨ t.answer = some ⟨.missingData, .absent⟩
    | .parse _ => ∃ v, t.answer = some ⟨.none, .port v⟩ ∨ t.answer = some ⟨.badField, .port v⟩
    | .rdf _ => ∃ v, t.answer = some ⟨.none, .field v⟩
    | .wrf _ _ => t.answer = some ⟨.none, .absent⟩

/-- 10_state.md section 4 and 60_exceptions.md section 5 (decision D8): no status is latched and no error is sticky. What
the last step put on the outputs makes no difference to a command: the status is the same, and so is all of the next
state when the status is None (after a failure the free values are not compared). -/
def Obligations.StatusIsNotLatched : Prop :=
  ∀ (i : Instr) (s t : State) (a : Option Answer) (c : Option MutatorCall),
    s.reserves ≠ [] → s.callbacks ≠ [] → exec i s = .next t →
    ∃ u, exec i { s with answer := a, call := c } = .next u ∧
      u.answer.map Answer.st = t.answer.map Answer.st ∧
      ((∃ v, t.answer = some ⟨.none, v⟩) → u = t)

/-- 10_state.md section 5 (decision D17): `MUT_PRESENT` and `MUT_CTX` are read by MUTATE alone: with another configuration
every other command answers the same status, and the same next state when the status is None. -/
def Obligations.MutatorReadOnlyByMutate : Prop :=
  ∀ (i : Instr) (s t : State) (m : Option MutCtx), (∀ l, i ≠ .mutate l) → s.reserves ≠ [] → exec i s = .next t →
    ∃ u, exec i { s with mutator := m } = .next u ∧
      u.answer.map Answer.st = t.answer.map Answer.st ∧
      ((∃ v, t.answer = some ⟨.none, v⟩) → u = { t with mutator := m })

/-- 10_state.md section 7 (a): the Buffer is reached by PACK and UNPACK and by no other command: with another Buffer every
other command answers the same status, and the same next state but for that Buffer when the status is None. For MUTATE
with a callback this rests on the assumption that the callback does not touch BUF (decision D17, log 9). States with no
listed answer of the callback are left out. -/
def Obligations.BufferReachedOnlyByPackAndUnpack : Prop :=
  ∀ (i : Instr) (s t : State) (m : Memory), i ≠ .pack → i ≠ .unpack → s.callbacks ≠ [] → exec i s = .next t →
    ∃ u, exec i { s with buf := m } = .next u ∧
      u.answer.map Answer.st = t.answer.map Answer.st ∧
      ((∃ v, t.answer = some ⟨.none, v⟩) → u = { t with buf := m })
end

