-- ==== Sys2Proof/Laws/Memory.lean ====
section
/-! SUPPORT. The Buffer's bytes: canonical form is kept by every operation, equal reads are equal Buffers, a read after a
write, and where a reservation moves the old bytes. -/

namespace Sys2Proof.Machine

/-! ### `numbered` and `ofBytes` -/

@[simp] theorem length_numbered (bs : List Byte) : ∀ k, (Memory.numbered k bs).length = bs.length := by
  induction bs with
  | nil => intro k; rfl
  | cons b bs ih => intro k; simp [Memory.numbered, ih]

theorem fst_numbered (bs : List Byte) : ∀ k, (Memory.numbered k bs).map Prod.fst = List.range' k bs.length := by
  induction bs with
  | nil => intro k; rfl
  | cons b bs ih => intro k; simp [Memory.numbered, ih, List.range'_succ]

@[simp] theorem snd_numbered (bs : List Byte) : ∀ k, (Memory.numbered k bs).map Prod.snd = bs := by
  induction bs with
  | nil => intro k; rfl
  | cons b bs ih => intro k; simp [Memory.numbered, ih]

/-- A list of cells whose offsets count up from `k` is the numbering of its bytes. -/
theorem eq_numbered (m : Memory) : ∀ k, m.map Prod.fst = List.range' k m.length →
    m = Memory.numbered k (m.map Prod.snd) := by
  induction m with
  | nil => intro k _; rfl
  | cons c m ih =>
    intro k h
    obtain ⟨a, b⟩ := c
    simp only [List.map_cons, List.length_cons, List.range'_succ, List.cons.injEq] at h
    obtain ⟨rfl, h⟩ := h
    simp only [List.map_cons, Memory.numbered]
    rw [← ih (a + 1) h]

theorem read_numbered (bs : List Byte) : ∀ k off, k ≤ off → (Memory.numbered k bs).read off = bs[off - k]? := by
  induction bs with
  | nil => intro k off _; rfl
  | cons b bs ih =>
    intro k off h
    by_cases e : k = off
    · subst e; simp [Memory.numbered, Memory.read]
    · have h' : off - k = (off - (k + 1)) + 1 := by omega
      simp only [Memory.numbered, Memory.read, e, if_false]
      rw [ih (k + 1) off (by omega), h', List.getElem?_cons_succ]

@[simp] theorem bytes_ofBytes (bs : List Byte) : (Memory.ofBytes bs).bytes = bs :=
  snd_numbered bs 0

@[simp] theorem size_ofBytes (bs : List Byte) : (Memory.ofBytes bs).size = bs.length :=
  length_numbered bs 0

@[simp] theorem read_ofBytes (bs : List Byte) (off : Nat) : (Memory.ofBytes bs).read off = bs[off]? := by
  rw [Memory.ofBytes, read_numbered bs 0 off (Nat.zero_le off), Nat.sub_zero]

theorem wf_iff (m : Memory) : m.wf = true ↔ m.map Prod.fst = List.range m.length := by
  simp [Memory.wf]

@[simp] theorem wf_ofBytes (bs : List Byte) : (Memory.ofBytes bs).wf = true := by
  rw [wf_iff, Memory.ofBytes, fst_numbered, length_numbered, List.range_eq_range']

@[simp] theorem wf_nil : Memory.wf [] = true := rfl

/-- A Buffer of canonical form is the Buffer of its bytes. -/
theorem eq_ofBytes_of_wf (m : Memory) (h : m.wf = true) : m = Memory.ofBytes m.bytes := by
  rw [wf_iff, List.range_eq_range'] at h
  exact eq_numbered m 0 h

theorem size_bytes (m : Memory) : m.bytes.length = m.size := by
  simp [Memory.bytes, Memory.size]

/-- In a Buffer of canonical form the byte at an offset is the byte of the sequence there. -/
theorem read_of_wf (m : Memory) (h : m.wf = true) (off : Nat) : m.read off = m.bytes[off]? := by
  conv_lhs => rw [eq_ofBytes_of_wf m h]
  exact read_ofBytes m.bytes off

/-! ### `write` -/

theorem read_write_same (m : Memory) (off : Nat) (v : Byte) (h : (m.read off).isSome) :
    (m.write off v).read off = some v := by
  induction m with
  | nil => simp [Memory.read] at h
  | cons c m ih =>
    obtain ⟨a, b⟩ := c
    by_cases e : a = off
    · simp [Memory.write, Memory.read, e]
    · simp only [Memory.read, e, if_false] at h
      simp [Memory.write, Memory.read, e, ih h]

theorem read_write_other (m : Memory) (off k : Nat) (v : Byte) (h : k ≠ off) :
    (m.write off v).read k = m.read k := by
  induction m with
  | nil => rfl
  | cons c m ih =>
    obtain ⟨a, b⟩ := c
    by_cases e : a = off
    · subst e
      have : ¬ a = k := fun h' => h h'.symm
      simp [Memory.write, Memory.read, this]
    · by_cases e' : a = k <;> simp [Memory.write, Memory.read, e, e', ih]
      · subst e'; simp [e, Memory.read]

@[simp] theorem fst_write (m : Memory) (off : Nat) (v : Byte) : (m.write off v).map Prod.fst = m.map Prod.fst := by
  induction m with
  | nil => rfl
  | cons c m ih =>
    obtain ⟨a, b⟩ := c
    by_cases e : a = off <;> simp [Memory.write, e, ih]

@[simp] theorem length_write (m : Memory) (off : Nat) (v : Byte) : (m.write off v).length = m.length := by
  have := congrArg List.length (fst_write m off v)
  simpa only [List.length_map] using this

@[simp] theorem wf_write (m : Memory) (off : Nat) (v : Byte) : (m.write off v).wf = m.wf := by
  simp [Memory.wf]

@[simp] theorem wf_write16 (m : Memory) (off : Nat) (v : Half) : (m.write16 off v).wf = m.wf := by
  simp [Memory.write16]

@[simp] theorem wf_write32 (m : Memory) (off : Nat) (v : Word) : (m.write32 off v).wf = m.wf := by
  simp [Memory.write32]

/-! ### `reserve` -/

@[simp] theorem size_reserve (fresh : List Byte) (m : Memory) :
    (m.reserve fresh).size = m.size + fresh.length := by
  simp only [Memory.size, Memory.reserve, Memory.ofBytes, List.length_append, length_numbered, List.length_map]
  omega

theorem numbered_append (bs cs : List Byte) : ∀ k,
    Memory.numbered k (bs ++ cs) = Memory.numbered k bs ++ Memory.numbered (k + bs.length) cs := by
  induction bs with
  | nil => intro k; simp [Memory.numbered]
  | cons b bs ih =>
    intro k
    simp only [List.cons_append, Memory.numbered, ih, List.length_cons]
    rw [show k + 1 + bs.length = k + (bs.length + 1) by omega]

theorem shift_numbered (bs : List Byte) (n : Nat) : ∀ k,
    (Memory.numbered k bs).map (fun c => (c.1 + n, c.2)) = Memory.numbered (k + n) bs := by
  induction bs with
  | nil => intro k; rfl
  | cons b bs ih =>
    intro k
    simp only [Memory.numbered, List.map_cons, ih]
    rw [show k + 1 + n = k + n + 1 by omega]

/-- On a Buffer of canonical form a reservation prepends the new bytes (20_memory.md R34). -/
theorem reserve_ofBytes (fresh bs : List Byte) :
    (Memory.ofBytes bs).reserve fresh = Memory.ofBytes (fresh ++ bs) := by
  simp only [Memory.reserve, Memory.ofBytes, numbered_append, shift_numbered, Nat.zero_add]

theorem wf_reserve (fresh : List Byte) (m : Memory) (h : m.wf = true) : (m.reserve fresh).wf = true := by
  rw [eq_ofBytes_of_wf m h, reserve_ofBytes]
  exact wf_ofBytes _

theorem read_append_numbered (bs : List Byte) (m : Memory) : ∀ k off, k ≤ off → off < k + bs.length →
    Memory.read (Memory.numbered k bs ++ m) off = bs[off - k]? := by
  induction bs with
  | nil => intro k off h1 h2; simp at h2; omega
  | cons b bs ih =>
    intro k off h1 h2
    by_cases e : k = off
    · subst e; simp [Memory.numbered, Memory.read]
    · simp only [Memory.numbered, List.cons_append, Memory.read, e, if_false]
      rw [ih (k + 1) off (by omega) (by simp at h2; omega), show off - k = (off - (k + 1)) + 1 by omega,
        List.getElem?_cons_succ]

theorem read_append_beyond (bs : List Byte) (m : Memory) : ∀ k off, k + bs.length ≤ off →
    Memory.read (Memory.numbered k bs ++ m) off = Memory.read m off := by
  induction bs with
  | nil => intro k off _; rfl
  | cons b bs ih =>
    intro k off h
    have h' : k + bs.length + 1 ≤ off := by simpa [Nat.add_assoc] using h
    have e : ¬ k = off := by omega
    simp only [Memory.numbered, List.cons_append, Memory.read, e, if_false]
    exact ih (k + 1) off (by omega)

theorem read_shift (m : Memory) (n off : Nat) :
    Memory.read (m.map (fun c => (c.1 + n, c.2))) (off + n) = m.read off := by
  induction m with
  | nil => rfl
  | cons c m ih =>
    obtain ⟨a, b⟩ := c
    by_cases e : a = off
    · simp [Memory.read, e]
    · simp [Memory.read, e, ih]

/-- The new bytes of a reservation are the front of the Buffer. -/
theorem read_reserve_front (fresh : List Byte) (m : Memory) (off : Nat) (h : off < fresh.length) :
    (m.reserve fresh).read off = fresh[off]? := by
  rw [Memory.reserve, Memory.ofBytes, read_append_numbered fresh _ 0 off (by omega) (by omega), Nat.sub_zero]

/-- An old byte is found further from the front by the number of new bytes (20_memory.md R34). -/
theorem read_reserve_old (fresh : List Byte) (m : Memory) (off : Nat) :
    (m.reserve fresh).read (off + fresh.length) = m.read off := by
  rw [Memory.reserve, Memory.ofBytes, read_append_beyond fresh _ 0 _ (by omega), read_shift]

end Sys2Proof.Machine
end

