-- ==== Sys2Proof/Laws/Codec.lean ====
section
/-! SUPPORT. The ten field writes and the ten field reads of the codec, said once. -/

namespace Sys2Proof.Machine

@[simp] theorem length_wireHeader (g : Segment) : (wireHeader g).length = 20 := rfl

@[simp] theorem length_drawBytes (k n : Nat) : (drawBytes k n).length = n := by
  simp [drawBytes]

/-! ### Splitting and joining bytes -/

/-- A slice of the upper half of a word. -/
theorem slice_upper (v : Word) (s l : Nat) (h : s + l ≤ 16) :
    (v.extractLsb' 16 16).extractLsb' s l = v.extractLsb' (16 + s) l := by
  ext i hi
  have : s + i < 16 := by omega
  simp [BitVec.getElem_extractLsb', this, Nat.add_assoc]

/-- The two bytes of a half, joined again. -/
@[simp] theorem join_half (v : Half) : (v.extractLsb' 8 8 ++ v.extractLsb' 0 8 : Half) = v := by
  rw [BitVec.extractLsb'_append_extractLsb'_eq_extractLsb'] <;> simp

/-- The four bytes of a word, joined again. -/
@[simp] theorem join_word (v : Word) :
    (v.extractLsb' 24 8 ++ v.extractLsb' 16 8 ++ v.extractLsb' 8 8 ++ v.extractLsb' 0 8 : Word) = v := by
  rw [BitVec.extractLsb'_append_extractLsb'_eq_extractLsb' (by decide),
    BitVec.extractLsb'_append_extractLsb'_eq_extractLsb' (by decide),
    BitVec.extractLsb'_append_extractLsb'_eq_extractLsb' (by decide)]
  simp

/-- Joining four bytes in pairs is joining them from the left. -/
theorem join_pairs (a b c d : Byte) : ((a ++ b : Half) ++ (c ++ d : Half) : Word) = a ++ b ++ c ++ d := by
  have := BitVec.append_assoc (x₁ := (a ++ b : Half)) (x₂ := c) (x₃ := d)
  simpa using this.symm

/-- A slice that lies in the lower part of a join. -/
theorem slice_append_low {n m : Nat} (x : BitVec n) (y : BitVec m) (s l : Nat) (h : s + l ≤ m) :
    (x ++ y).extractLsb' s l = y.extractLsb' s l := by
  ext i hi
  have : s + i < m := by omega
  simp [BitVec.getElem_extractLsb', BitVec.getLsbD_append, this]

/-- A slice that lies in the upper part of a join. -/
theorem slice_append_high {n m : Nat} (x : BitVec n) (y : BitVec m) (s l : Nat) (h : m ≤ s) :
    (x ++ y).extractLsb' s l = x.extractLsb' (s - m) l := by
  ext i hi
  have : ¬ s + i < m := by omega
  simp [BitVec.getElem_extractLsb', BitVec.getLsbD_append, this, show s + i - m = s - m + i by omega]

/-- Two joined bytes, split again. -/
theorem split_half (a b : Byte) :
    (a ++ b : Half).extractLsb' 8 8 = a ∧ (a ++ b : Half).extractLsb' 0 8 = b :=
  ⟨(slice_append_high a b 8 8 (by decide)).trans (by simp), (slice_append_low a b 0 8 (by decide)).trans (by simp)⟩

/-- Four joined bytes, split again. -/
theorem split_word (a b c d : Byte) :
    (a ++ b ++ c ++ d : Word).extractLsb' 24 8 = a ∧ (a ++ b ++ c ++ d : Word).extractLsb' 16 8 = b ∧
    (a ++ b ++ c ++ d : Word).extractLsb' 8 8 = c ∧ (a ++ b ++ c ++ d : Word).extractLsb' 0 8 = d := by
  have outer : ∀ s, 8 ≤ s → (a ++ b ++ c ++ d : Word).extractLsb' s 8 = (a ++ b ++ c).extractLsb' (s - 8) 8 :=
    fun s h => slice_append_high (a ++ b ++ c) d s 8 h
  have inner : ∀ s, 8 ≤ s → (a ++ b ++ c).extractLsb' s 8 = (a ++ b : Half).extractLsb' (s - 8) 8 :=
    fun s h => slice_append_high (a ++ b) c s 8 h
  refine ⟨?_, ?_, ?_, (slice_append_low (a ++ b ++ c) d 0 8 (by decide)).trans (by simp)⟩
  · rw [outer 24 (by decide), inner 16 (by decide)]
    exact (split_half a b).1
  · rw [outer 16 (by decide), inner 8 (by decide)]
    exact (split_half a b).2
  · rw [outer 8 (by decide)]
    exact (slice_append_low (a ++ b) c 0 8 (by decide)).trans (by simp)

/-- The control bits joined on decode, split as on encode. -/
theorem split_control (b12 b13 : Byte) :
    (b12.extractLsb' 0 1 ++ b13 : BitVec 9).extractLsb' 8 1 = b12.extractLsb' 0 1 ∧
    (b12.extractLsb' 0 1 ++ b13 : BitVec 9).extractLsb' 0 8 = b13 :=
  ⟨(slice_append_high (b12.extractLsb' 0 1) b13 8 1 (by decide)).trans (by simp),
    (slice_append_low (b12.extractLsb' 0 1) b13 0 8 (by decide)).trans (by simp)⟩

/-- Byte 12 rebuilt from the NS bit of a byte 12. -/
theorem byte12_of_byte (b : Byte) :
    (0b0101#4 ++ 0b000#3 ++ b.extractLsb' 0 1 : Byte) = 0x50 ||| (b &&& 0x01) := by
  decide +revert

/-- The two values byte 12 can have on encode. -/
theorem byte12_values (c : BitVec 9) :
    (0b0101#4 ++ 0b000#3 ++ c.extractLsb' 8 1 : Byte) = if c.getLsbD 8 then 0x51 else 0x50 := by
  have : ∀ b : BitVec 1, (0b0101#4 ++ 0b000#3 ++ b : Byte) = if b.getLsbD 0 then 0x51 else 0x50 := by decide
  rw [this]
  simp

/-- The high nibble of a byte as a number. -/
theorem high_nibble_toNat (b : Byte) : (b.extractLsb' 4 4).toNat = b.toNat / 16 := by
  simp [BitVec.extractLsb'_toNat, Nat.shiftRight_eq_div_pow]
  omega

/-- Two bytes 12 that differ in the reserved bits only carry the same data offset and NS. -/
theorem reserved_bits_ignored (b c : Byte) (h : b &&& 0xF1 = c &&& 0xF1) :
    b.extractLsb' 4 4 = c.extractLsb' 4 4 ∧ b.extractLsb' 0 1 = c.extractLsb' 0 1 := by
  have g : ∀ x : Byte, (x &&& 0xF1).extractLsb' 4 4 = x.extractLsb' 4 4 ∧
      (x &&& 0xF1).extractLsb' 0 1 = x.extractLsb' 0 1 := by decide
  exact ⟨by rw [← (g b).1, h, (g c).1], by rw [← (g b).2, h, (g c).2]⟩

/-- The data offset that byte 12 carries on encode. -/
theorem dataOffsetOf_encoded (c : BitVec 9) :
    (0b0101#4 ++ 0b000#3 ++ c.extractLsb' 8 1 : Byte).extractLsb' 4 4 = 5 := by
  decide +revert

/-- The nine control bits, split over bytes 12 and 13 and joined again. -/
theorem join_control (c : BitVec 9) :
    ((0b0101#4 ++ 0b000#3 ++ c.extractLsb' 8 1 : Byte).extractLsb' 0 1 ++ c.extractLsb' 0 8 : BitVec 9) = c := by
  decide +revert

/-- `dataOffsetOf_encoded` as simp meets it, the nibble and the zeros joined to seven bits. -/
@[simp] theorem dataOffsetOf_encoded_seven (c : BitVec 9) :
    (40#7 ++ c.extractLsb' 8 1 : Byte).extractLsb' 4 4 = 5#4 := by
  decide +revert

/-- `join_control` as simp meets it. -/
@[simp] theorem join_control_seven (c : BitVec 9) :
    ((40#7 ++ c.extractLsb' 8 1 : Byte).extractLsb' 0 1 ++ c.extractLsb' 0 8 : BitVec 9) = c := by
  decide +revert

/-! ### PACK's writes -/

/-- The writes keep the canonical form. -/
@[simp] theorem wf_writeHeader (g : Segment) (m : Memory) : (writeHeader g m).wf = m.wf := by
  simp [writeHeader]

/-- A list of twenty bytes, written out. -/
theorem twenty_bytes (bs : List Byte) (h : bs.length = 20) :
    ∃ b0 b1 b2 b3 b4 b5 b6 b7 b8 b9 b10 b11 b12 b13 b14 b15 b16 b17 b18 b19,
      bs = [b0, b1, b2, b3, b4, b5, b6, b7, b8, b9, b10, b11, b12, b13, b14, b15, b16, b17, b18, b19] := by
  refine ⟨bs[0], bs[1], bs[2], bs[3], bs[4], bs[5], bs[6], bs[7], bs[8], bs[9], bs[10], bs[11], bs[12], bs[13],
    bs[14], bs[15], bs[16], bs[17], bs[18], bs[19], ?_⟩
  apply List.ext_getElem
  · simpa using h
  · intro i h1 h2
    have : i < 20 := by omega
    interval_cases i <;> rfl

/-- The ten field writes over a window of twenty bytes, whatever stands behind it, give exactly the header of
30_encoding.md R53 there. -/
theorem writeHeader_window (g : Segment) (fresh : List Byte) (m : Memory) (h : fresh.length = 20) :
    writeHeader g (Memory.ofBytes fresh ++ m) = Memory.ofBytes (wireHeader g) ++ m := by
  obtain ⟨b0, b1, b2, b3, b4, b5, b6, b7, b8, b9, b10, b11, b12, b13, b14, b15, b16, b17, b18, b19, rfl⟩ :=
    twenty_bytes fresh h
  simp [writeHeader, Memory.ofBytes, Memory.numbered, Memory.write32, Memory.write16, Memory.write, wireHeader,
    byte12, byte13, Config.doffFixed, slice_upper]

/-- The Buffer after PACK's reservation and writes, on any old content. -/
theorem writeHeader_reserve (g : Segment) (fresh : List Byte) (m : Memory) (h : fresh.length = 20) :
    writeHeader g (m.reserve fresh) = m.reserve (wireHeader g) := by
  rw [Memory.reserve, writeHeader_window g fresh _ h, h]
  rfl

/-! ### UNPACK's reads -/

theorem read16_of_reads (m : Memory) (off : Nat) (hi lo : Byte) (h1 : m.read off = some hi)
    (h2 : m.read (off + 1) = some lo) : m.read16 off = some (hi ++ lo) := by
  simp [Memory.read16, h1, h2]

theorem read32_of_reads (m : Memory) (off : Nat) (a b c d : Byte) (h0 : m.read off = some a)
    (h1 : m.read (off + 1) = some b) (h2 : m.read (off + 2) = some c) (h3 : m.read (off + 3) = some d) :
    m.read32 off = some (a ++ b ++ c ++ d) := by
  simp only [Memory.read32, read16_of_reads m off a b h0 h1, read16_of_reads m (off + 2) c d h2 h3, join_pairs]

/-- The ten field reads, where the twenty offsets are listed: the fields of 30_encoding.md R54. -/
theorem readHeader_of_reads (m : Memory) (b : Nat → Byte) (h : ∀ k, k < 20 → m.read k = some (b k)) :
    readHeader m = some (wireFields b) := by
  have r16 : ∀ k, k + 1 < 20 → m.read16 k = some (b k ++ b (k + 1)) := fun k hk =>
    read16_of_reads m k _ _ (h k (by omega)) (h (k + 1) hk)
  have r32 : ∀ k, k + 3 < 20 → m.read32 k = some (b k ++ b (k + 1) ++ b (k + 2) ++ b (k + 3)) := fun k hk =>
    read32_of_reads m k _ _ _ _ (h k (by omega)) (h (k + 1) (by omega)) (h (k + 2) (by omega)) (h (k + 3) hk)
  simp [readHeader, h, r16, r32, wireFields, dataOffsetOf, controlBitsOf]

theorem readHeader_of_wf (m : Memory) (hw : m.wf = true) (hs : 20 ≤ m.size) :
    readHeader m = some (wireFields (byteAt m.bytes)) := by
  apply readHeader_of_reads
  intro k hk
  have : k < m.bytes.length := by rw [size_bytes]; omega
  rw [read_of_wf m hw k]
  simp [byteAt, this]

/-- Reading back a header just written, whatever stands behind it. -/
theorem readHeader_reserve (g : Segment) (m : Memory) :
    readHeader (m.reserve (wireHeader g)) = some (wireFields (byteAt (wireHeader g))) := by
  apply readHeader_of_reads
  intro k hk
  rw [read_reserve_front _ _ _ (by simpa using hk)]
  have : k < (wireHeader g).length := by simpa using hk
  simp only [byteAt, List.getD_eq_getElem?_getD, List.getElem?_eq_getElem this, Option.getD_some]

end Sys2Proof.Machine
end

