-- ==== Sys2Proof/Laws/Decode.lean ====
section
/-! SUPPORT. The pieces of the command word, and when each family of the decoder accepts. -/

namespace Sys2Proof

@[simp] theorem opOf_commandWord (sel op : BitVec 4) : opOf (commandWord sel op) = op := by
  decide +revert

@[simp] theorem selOf_commandWord (sel op : BitVec 4) : selOf (commandWord sel op) = sel := by
  decide +revert

theorem commandWord_selOf_opOf (cw : Byte) : commandWord (selOf cw) (opOf cw) = cw := by
  decide +revert

/-- Every command word is put together from its two nibbles. -/
theorem commandWord_cases (cw : Byte) : ∃ sel op, cw = commandWord sel op ∧
    (op = 0 ∨ op = 1 ∨ op = 2 ∨ op = 3 ∨ op = 4 ∨ op = 5 ∨ op = 6 ∨ op = 7 ∨ op = 8 ∨ 9 ≤ op.toNat) :=
  ⟨selOf cw, opOf cw, (commandWord_selOf_opOf cw).symm, by generalize opOf cw = op; decide +revert⟩

/-- Operations 9 to 15 are no command (30_encoding.md R62). -/
theorem decode_unassignedOp (p : Presented) (h : 9 ≤ (opOf p.cw).toNat) :
    decode p = .error (.unassignedOp (opOf p.cw)) := by
  unfold decode
  split <;> first | omega | rfl

@[simp] theorem fieldOfSel_selOfField (f : Field) : fieldOfSel (selOfField f) = some f := by
  cases f <;> rfl

/-- A selector names at most one field, and that field has this selector. -/
theorem fieldOfSel_eq_some (sel : BitVec 4) (f : Field) : fieldOfSel sel = some f ↔ sel = selOfField f := by
  cases f <;> decide +revert

theorem decodePlain_ok (sel : BitVec 4) (i j : Instr) : decodePlain sel i = .ok j ↔ sel = 0 ∧ i = j := by
  unfold decodePlain
  split <;> simp_all

theorem decodeText_ok (sel : BitVec 4) (t : PortText) (i j : Instr) :
    decodeText sel t i = .ok j ↔ sel = 0 ∧ Machine.textPresent t = true ∧ i = j := by
  unfold decodeText
  split
  · split <;> simp_all
  · simp_all

theorem decodeRdf_ok (sel : BitVec 4) (j : Instr) :
    decodeRdf sel = .ok j ↔ ∃ f, sel = selOfField f ∧ j = .rdf f := by
  unfold decodeRdf
  cases h : fieldOfSel sel with
  | none =>
    simp only [reduceCtorEq, false_iff]
    rintro ⟨f, hf, -⟩
    rw [(fieldOfSel_eq_some sel f).2 hf] at h
    cases h
  | some f =>
    rw [fieldOfSel_eq_some] at h
    constructor
    · intro hj
      exact ⟨f, h, (Except.ok.inj hj).symm⟩
    · rintro ⟨g, hg, rfl⟩
      have : some f = some g := by
        rw [← (fieldOfSel_eq_some sel f).2 h, (fieldOfSel_eq_some sel g).2 hg]
      rw [Option.some.inj this]

theorem decodeWrf_ok (sel : BitVec 4) (data : Word) (j : Instr) :
    decodeWrf sel data = .ok j ↔ ∃ f, sel = selOfField f ∧ Machine.fieldFits f data = true ∧ j = .wrf f data := by
  unfold decodeWrf
  cases h : fieldOfSel sel with
  | none =>
    simp only [reduceCtorEq, false_iff]
    rintro ⟨f, hf, -⟩
    rw [(fieldOfSel_eq_some sel f).2 hf] at h
    cases h
  | some f =>
    have hs := (fieldOfSel_eq_some sel f).1 h
    have hg : ∀ g, sel = selOfField g → g = f := fun g hg => by
      have : some f = some g := by rw [← h, (fieldOfSel_eq_some sel g).2 hg]
      exact (Option.some.inj this).symm
    by_cases hf : Machine.fieldFits f data = true
    · simp only [hf, if_true, Except.ok.injEq]
      constructor
      · intro hj
        exact ⟨f, hs, hf, hj.symm⟩
      · rintro ⟨g, h1, -, rfl⟩
        rw [hg g h1]
    · simp only [hf, if_false, reduceCtorEq, false_iff]
      rintro ⟨g, h1, h2, -⟩
      rw [hg g h1] at h2
      exact hf h2

end Sys2Proof
end

