-- ==== Sys2Proof/Laws/Parser.lean ====
section
/-! SUPPORT. The Port Parser's loop, said once: where it fails, what it accumulates, and how large that can get. -/

namespace Sys2Proof.Machine

theorem isDigit_iff (c : Byte) : isDigit c = true ↔ 0x30 ≤ c.toNat ∧ c.toNat ≤ 0x39 := by
  simp [isDigit]

theorem digitValue_le (c : Byte) (h : isDigit c = true) : digitValue c ≤ 9 := by
  rw [isDigit_iff] at h
  unfold digitValue
  omega

@[simp] theorem accumulate_nil (acc : Nat) : accumulate acc [] = some acc := rfl

@[simp] theorem accumulate_digit (acc : Nat) (c : Byte) (cs : List Byte) (h : isDigit c = true) :
    accumulate acc (c :: cs) = accumulate (acc * 10 + digitValue c) cs := by
  simp [accumulate, h]

@[simp] theorem accumulate_nondigit (acc : Nat) (c : Byte) (cs : List Byte) (h : isDigit c = false) :
    accumulate acc (c :: cs) = none := by
  simp [accumulate, h]

/-- The loop fails exactly at a non-digit (40_port_parser.md R73). -/
theorem accumulate_isSome_iff (bs : List Byte) : ∀ acc,
    (accumulate acc bs).isSome = true ↔ ∀ c ∈ bs, isDigit c = true := by
  induction bs with
  | nil => intro acc; simp
  | cons c cs ih =>
    intro acc
    cases h : isDigit c with
    | true => simp [h, ih]
    | false => simp [h]

/-- What has been accumulated before the scan counts with the weight of the digits to come. -/
theorem accumulate_shift (bs : List Byte) : ∀ acc v, accumulate 0 bs = some v →
    accumulate acc bs = some (acc * 10 ^ bs.length + v) := by
  induction bs with
  | nil => intro acc v h; simp at h; simp [← h]
  | cons c cs ih =>
    intro acc v h
    cases hc : isDigit c with
    | false => rw [accumulate_nondigit _ _ _ hc] at h; cases h
    | true =>
      rw [accumulate_digit _ _ _ hc] at h ⊢
      have hs : (accumulate 0 cs).isSome = true :=
        (accumulate_isSome_iff cs 0).2 ((accumulate_isSome_iff cs _).1 (by rw [h]; rfl))
      obtain ⟨w, hw⟩ := Option.isSome_iff_exists.1 hs
      rw [ih _ w hw] at h ⊢
      have h' := Option.some.inj h
      rw [← h']
      congr 1
      simp only [List.length_cons, pow_succ]
      ring

/-- `n` digits accumulate to less than `10 ^ n` (40_port_parser.md R74). -/
theorem accumulate_lt (bs : List Byte) : ∀ v, accumulate 0 bs = some v → v < 10 ^ bs.length := by
  induction bs with
  | nil => intro v h; simp at h; simp [← h]
  | cons c cs ih =>
    intro v h
    cases hc : isDigit c with
    | false => rw [accumulate_nondigit _ _ _ hc] at h; cases h
    | true =>
      rw [accumulate_digit _ _ _ hc] at h
      have hs : (accumulate 0 cs).isSome = true :=
        (accumulate_isSome_iff cs 0).2 ((accumulate_isSome_iff cs _).1 (by rw [h]; rfl))
      obtain ⟨w, hw⟩ := Option.isSome_iff_exists.1 hs
      rw [accumulate_shift cs _ w hw] at h
      have hlt := ih w hw
      have hd := digitValue_le c hc
      have h' := Option.some.inj h
      have := Nat.mul_le_mul_right (10 ^ cs.length) hd
      rw [← h', List.length_cons, pow_succ, Nat.zero_mul, Nat.zero_add]
      omega

/-- At most five bytes are scanned (40_port_parser.md R72). -/
theorem length_scannedText (t : PortText) : (scannedText t).length ≤ 5 := by
  have : scanCount t ≤ 5 := Nat.min_le_right _ _
  simp only [scannedText, List.length_take]
  omega

/-- The range check is on all of the accumulated value (40_port_parser.md R75). -/
theorem parseScanned_of_accumulate (bs : List Byte) (acc : Nat) (h : accumulate 0 bs = some acc) :
    parseScanned bs = if 65535 < acc then .badField else .ok (BitVec.ofNat 16 acc) := by
  unfold parseScanned
  rw [h]

theorem parseScanned_nondigit (bs : List Byte) (h : ¬ ∀ c ∈ bs, isDigit c = true) : parseScanned bs = .badField := by
  have : accumulate 0 bs = none := by
    rw [← Option.not_isSome_iff_eq_none, accumulate_isSome_iff]
    exact h
  unfold parseScanned
  rw [this]

/-- The parser answers a port or BadField, nothing else (40_port_parser.md R71). -/
theorem parsePort_cases (t : PortText) : (∃ v, parsePort t = .ok v) ∨ parsePort t = .badField := by
  cases h : parsePort t with
  | ok v => exact .inl ⟨v, rfl⟩
  | badField => exact .inr rfl

/-- The operand check of the texts, as the decoder and the meanings use it (D11). -/
theorem textPresent_iff (t : PortText) : textPresent t = true ↔ min t.len 5 ≤ t.text.length := by
  simp [textPresent, scanCount, Config.portScanMax]

end Sys2Proof.Machine
end

