-- ==== Sys2Proof/Laws/State.lean ====
section
/-! SUPPORT. One lemma per field per update of State, so that no later proof unfolds a record update. -/

namespace Sys2Proof.Machine

/-! ### `spend` -/

@[simp] theorem spend_seg (s : State) (n : Nat) : (s.spend n).seg = s.seg := rfl
@[simp] theorem spend_buf (s : State) (n : Nat) : (s.spend n).buf = s.buf := rfl
@[simp] theorem spend_mutator (s : State) (n : Nat) : (s.spend n).mutator = s.mutator := rfl
@[simp] theorem spend_inputs (s : State) (n : Nat) : (s.spend n).inputs = s.inputs := rfl
@[simp] theorem spend_reserves (s : State) (n : Nat) : (s.spend n).reserves = s.reserves := rfl
@[simp] theorem spend_callbacks (s : State) (n : Nat) : (s.spend n).callbacks = s.callbacks := rfl
@[simp] theorem spend_answer (s : State) (n : Nat) : (s.spend n).answer = s.answer := rfl
@[simp] theorem spend_call (s : State) (n : Nat) : (s.spend n).call = s.call := rfl
@[simp] theorem spend_draws (s : State) (n : Nat) : (s.spend n).draws = s.draws + n := rfl

/-! ### `answering` -/

section
variable (s : State) (st : Status) (v : DataVal)

@[simp] theorem answering_seg : (s.answering st v).seg = s.seg := rfl
@[simp] theorem answering_buf : (s.answering st v).buf = s.buf := rfl
@[simp] theorem answering_mutator : (s.answering st v).mutator = s.mutator := rfl
@[simp] theorem answering_inputs : (s.answering st v).inputs = s.inputs := rfl
@[simp] theorem answering_reserves : (s.answering st v).reserves = s.reserves := rfl
@[simp] theorem answering_callbacks : (s.answering st v).callbacks = s.callbacks := rfl
@[simp] theorem answering_answer : (s.answering st v).answer = some ⟨st, v⟩ := rfl
@[simp] theorem answering_call : (s.answering st v).call = none := rfl
@[simp] theorem answering_draws : (s.answering st v).draws = s.draws := rfl
end

/-! ### `quiet` -/

@[simp] theorem quiet_seg (s : State) : s.quiet.seg = s.seg := rfl
@[simp] theorem quiet_buf (s : State) : s.quiet.buf = s.buf := rfl
@[simp] theorem quiet_mutator (s : State) : s.quiet.mutator = s.mutator := rfl
@[simp] theorem quiet_inputs (s : State) : s.quiet.inputs = s.inputs := rfl
@[simp] theorem quiet_reserves (s : State) : s.quiet.reserves = s.reserves := rfl
@[simp] theorem quiet_callbacks (s : State) : s.quiet.callbacks = s.callbacks := rfl
@[simp] theorem quiet_answer (s : State) : s.quiet.answer = none := rfl
@[simp] theorem quiet_call (s : State) : s.quiet.call = none := rfl
@[simp] theorem quiet_draws (s : State) : s.quiet.draws = s.draws := rfl

/-! ### `presenting` -/

@[simp] theorem presenting_seg (s : State) (x : HostInput) : (s.presenting x).seg = s.seg := rfl
@[simp] theorem presenting_buf (s : State) (x : HostInput) : (s.presenting x).buf = s.buf := rfl
@[simp] theorem presenting_inputs (s : State) (x : HostInput) : (s.presenting x).inputs = x :: s.inputs := rfl

/-- Taking the input just presented off the queue gives the state before. -/
@[simp] theorem presenting_taken (s : State) (x : HostInput) : { s.presenting x with inputs := s.inputs } = s := rfl

/-! ### The answers of the collaborators -/

theorem reserveAnswer_listed (s : State) (n : Nat) (a : ReserveAnswer) (rest : List ReserveAnswer)
    (h : s.reserves = a :: rest) : s.reserveAnswer n = a := by
  simp [State.reserveAnswer, h]

theorem afterReserve_listed (s : State) (a : ReserveAnswer) (rest : List ReserveAnswer)
    (h : s.reserves = a :: rest) : s.afterReserve = { s with reserves := rest } := by
  simp [State.afterReserve, h]

/-- Taking an answer of the Buffer changes nothing but the list of its answers and the draw counter. -/
theorem afterReserve_cases (s : State) : ∃ rs d, s.afterReserve = { s with reserves := rs, draws := d } := by
  unfold State.afterReserve
  split
  · exact ⟨s.reserves, s.draws + 1, rfl⟩
  · rename_i rest _
    exact ⟨rest, s.draws, rfl⟩

theorem callbackAnswer_listed (s : State) (c : MutatorCall) (a : CallbackAnswer) (rest : List CallbackAnswer)
    (h : s.callbacks = a :: rest) : s.callbackAnswer c = a := by
  simp [State.callbackAnswer, h]

theorem afterCallback_listed (s : State) (a : CallbackAnswer) (rest : List CallbackAnswer)
    (h : s.callbacks = a :: rest) : s.afterCallback = { s with callbacks := rest } := by
  simp [State.afterCallback, h]

/-- Taking an answer of the callback changes nothing but the list of its answers and the draw counter. -/
theorem afterCallback_cases (s : State) : ∃ cs d, s.afterCallback = { s with callbacks := cs, draws := d } := by
  unfold State.afterCallback
  split
  · exact ⟨s.callbacks, s.draws + 1, rfl⟩
  · rename_i rest _
    exact ⟨rest, s.draws, rfl⟩

/-- The Buffer's error is never `None` (20_memory.md R35). -/
@[simp] theorem statusOfError_ne_none (e : BufError) : statusOfError e ≠ .none := by
  cases e <;> simp [statusOfError]

end Sys2Proof.Machine
end

