-- ==== Sys2Proof/Laws/Exec.lean ====
section
/-! SUPPORT. What each meaning, and a step, can do: one inversion lemma each, which later proofs cite instead of
unfolding it. -/

namespace Sys2Proof.Machine

/-- All that SETSRC and SETDST can do. -/
theorem setPort_next (put : Segment → Half → Segment) (t : PortText) (s u : State)
    (h : setPort put t s = .next u) :
    textPresent t = true ∧
    ((∃ v, parsePort t = .ok v ∧ u = { s with seg := put s.seg v }.answering .none .absent) ∨
     (parsePort t = .badField ∧
      u = ({ s with seg := put s.seg (Config.freeBits 16 s.draws) }.spend 1).answering .badField .absent)) := by
  unfold setPort at h
  split at h
  · rename_i ht
    refine ⟨ht, ?_⟩
    cases hp : parsePort t with
    | ok v =>
      rw [hp] at h
      exact .inl ⟨v, rfl, (Host.Outcome.next.inj h).symm⟩
    | badField =>
      rw [hp] at h
      exact .inr ⟨rfl, (Host.Outcome.next.inj h).symm⟩
  · cases h

/-- All that SETSRC can do. -/
theorem execSetSrc_next (t : PortText) (s u : State) (h : execSetSrc t s = .next u) :
    textPresent t = true ∧
    ((∃ v, parsePort t = .ok v ∧ u = { s with seg := { s.seg with source := v } }.answering .none .absent) ∨
     (parsePort t = .badField ∧
      u = ({ s with seg := { s.seg with source := Config.freeBits 16 s.draws } }.spend 1).answering
        .badField .absent)) :=
  setPort_next (fun g v => { g with source := v }) t s u h

/-- All that SETDST can do. -/
theorem execSetDst_next (t : PortText) (s u : State) (h : execSetDst t s = .next u) :
    textPresent t = true ∧
    ((∃ v, parsePort t = .ok v ∧ u = { s with seg := { s.seg with destination := v } }.answering .none .absent) ∨
     (parsePort t = .badField ∧
      u = ({ s with seg := { s.seg with destination := Config.freeBits 16 s.draws } }.spend 1).answering
        .badField .absent)) :=
  setPort_next (fun g v => { g with destination := v }) t s u h

/-- All that PARSE can do. -/
theorem execParse_next (t : PortText) (s u : State) (h : execParse t s = .next u) :
    textPresent t = true ∧
    ((∃ v, parsePort t = .ok v ∧ u = s.answering .none (.port v)) ∨
     (parsePort t = .badField ∧
      u = (s.spend 1).answering .badField (.port (Config.freeBits 16 s.draws)))) := by
  unfold execParse at h
  split at h
  · rename_i ht
    refine ⟨ht, ?_⟩
    cases hp : parsePort t with
    | ok v =>
      rw [hp] at h
      exact .inl ⟨v, rfl, (Host.Outcome.next.inj h).symm⟩
    | badField =>
      rw [hp] at h
      exact .inr ⟨rfl, (Host.Outcome.next.inj h).symm⟩
  · cases h

/-- All that WRF can do. -/
theorem execWrf_next (f : Field) (data : Word) (s u : State) (h : execWrf f data s = .next u) :
    fieldFits f data = true ∧ u = { s with seg := writeField s.seg f data }.answering .none .absent := by
  unfold execWrf at h
  split at h
  · rename_i hf
    exact ⟨hf, (Host.Outcome.next.inj h).symm⟩
  · cases h

/-- All that PACK can do: the Buffer answers, and PACK follows the answer. -/
theorem execPack_next (s u : State) (h : execPack s = .next u) :
    (s.reserveAnswer Config.hdrLen = .ok ∧ u = packReserved s.afterReserve) ∨
    (∃ e after, s.reserveAnswer Config.hdrLen = .fail e after ∧ u = packFailed e after s.afterReserve) := by
  unfold execPack at h
  cases hr : s.reserveAnswer Config.hdrLen with
  | ok =>
    rw [hr] at h
    exact .inl ⟨rfl, (Host.Outcome.next.inj h).symm⟩
  | fail e after =>
    rw [hr] at h
    exact .inr ⟨e, after, rfl, (Host.Outcome.next.inj h).symm⟩

/-- What a successful PACK leaves: the header in front of the old bytes, on any old content; `data_offset` 5. -/
theorem packReserved_eq (s : State) : packReserved s =
    { s with
      buf := s.buf.reserve (wireHeader s.seg)
      seg := { s.seg with data_offset := 5 }
      answer := some ⟨.none, .absent⟩
      call := none
      draws := s.draws + 20 } := by
  unfold packReserved
  rw [writeHeader_reserve s.seg (drawBytes s.draws Config.hdrLen) s.buf (length_drawBytes _ _)]
  rfl

/-- What a failing PACK leaves. -/
theorem packFailed_eq (e : BufError) (after : List Byte) (s : State) : packFailed e after s =
    { s with
      buf := Memory.ofBytes after
      seg := { s.seg with data_offset := Config.freeBits 4 s.draws }
      answer := some ⟨statusOfError e, .absent⟩
      call := none
      draws := s.draws + 1 } := rfl

/-- A PACK that answered None is one whose reservation succeeded. -/
theorem execPack_succeeded (s u : State) (h : execPack s = .next u) (ha : u.answer = some ⟨.none, .absent⟩) :
    u = packReserved s.afterReserve := by
  rcases execPack_next s u h with ⟨-, hu⟩ | ⟨e, after, -, rfl⟩
  · exact hu
  · rw [packFailed_eq] at ha
    exact absurd (congrArg Answer.st (Option.some.inj ha)) (statusOfError_ne_none e)

/-- All that UNPACK can do. -/
theorem execUnpack_next (s u : State) (h : execUnpack s = .next u) :
    (s.buf.size < 20 ∧ u = ({ s with seg := drawSegment s.draws }.spend 9).answering .missingData .absent) ∨
    (20 ≤ s.buf.size ∧ ∃ g, readHeader s.buf = some g ∧ u = { s with seg := g }.answering .none .absent) := by
  unfold execUnpack at h
  split at h
  · rename_i hs
    exact .inl ⟨hs, (Host.Outcome.next.inj h).symm⟩
  · rename_i hs
    have hs' : 20 ≤ s.buf.size := Nat.le_of_not_lt hs
    cases hr : readHeader s.buf with
    | none => rw [hr] at h; cases h
    | some g =>
      rw [hr] at h
      exact .inr ⟨hs', g, rfl, (Host.Outcome.next.inj h).symm⟩

/-- All that MUTATE can do. -/
theorem execMutate_next (l : Option LCtx) (s u : State) (h : execMutate l s = .next u) :
    (s.mutator = none ∧ u = s.answering .none .absent) ∨
    (∃ ctx, s.mutator = some ctx ∧ u = runCallback ctx l s) := by
  unfold execMutate at h
  split at h
  · rename_i hm
    exact .inl ⟨hm, (Host.Outcome.next.inj h).symm⟩
  · rename_i ctx hm
    exact .inr ⟨ctx, hm, (Host.Outcome.next.inj h).symm⟩

/-- All that a step can do when it answers a next state. -/
theorem step_next (s t : State) (h : step s = .next t) :
    (s.inputs = [] ∧ t = s.quiet) ∨
    (∃ p rest i, s.inputs = .present p :: rest ∧ decode p = .ok i ∧ exec i { s with inputs := rest } = .next t) ∨
    (∃ bytes rest, s.inputs = .putBuffer bytes :: rest ∧ t = replaceBuffer bytes { s with inputs := rest }) ∨
    (∃ rest, s.inputs = .reset :: rest ∧ t = hardReset { s with inputs := rest }) := by
  unfold step at h
  split at h
  · rename_i hi
    exact .inl ⟨hi, (Host.Outcome.next.inj h).symm⟩
  · rename_i x rest hi
    cases x with
    | present p =>
      simp only [react, perform] at h
      cases hd : decode p with
      | ok i =>
        rw [hd] at h
        exact .inr (.inl ⟨p, rest, i, hi, hd, h⟩)
      | error e => rw [hd] at h; cases h
    | putBuffer bytes => exact .inr (.inr (.inl ⟨bytes, rest, hi, (Host.Outcome.next.inj h).symm⟩))
    | reset => exact .inr (.inr (.inr ⟨rest, hi, (Host.Outcome.next.inj h).symm⟩))
    | overlap p q => cases h
    | bufferRace p => cases h

end Sys2Proof.Machine
end

