-- ==== Sys2Proof/Laws/PerInstr.lean ====
section
/-! SUPPORT. Families of statements about every instruction as syntax. -/

namespace Sys2Proof.Laws

/-- The 25 legal command words (30_encoding.md R66). -/
def legalWords : List Byte :=
  [0x00, 0x01, 0x02, 0x03, 0x04, 0x05, 0x06,
   0x07, 0x17, 0x27, 0x37, 0x47, 0x57, 0x67, 0x77, 0x87,
   0x08, 0x18, 0x28, 0x38, 0x48, 0x58, 0x68, 0x78, 0x88]

/-- The encoder gives every instruction one of the legal command words. -/
def LegalWord.Statement (i : Instr) : Prop := (encode i).cw ∈ legalWords

theorem LegalWord.init : LegalWord.Statement .init := by
  show commandWord 0 0x0 ∈ legalWords
  decide
theorem LegalWord.setSrc (t : PortText) : LegalWord.Statement (.setSrc t) := by
  show commandWord 0 0x1 ∈ legalWords
  decide
theorem LegalWord.setDst (t : PortText) : LegalWord.Statement (.setDst t) := by
  show commandWord 0 0x2 ∈ legalWords
  decide
theorem LegalWord.mutate (l : Option LCtx) : LegalWord.Statement (.mutate l) := by
  show commandWord 0 0x3 ∈ legalWords
  decide
theorem LegalWord.pack : LegalWord.Statement .pack := by
  show commandWord 0 0x4 ∈ legalWords
  decide
theorem LegalWord.unpack : LegalWord.Statement .unpack := by
  show commandWord 0 0x5 ∈ legalWords
  decide
theorem LegalWord.parse (t : PortText) : LegalWord.Statement (.parse t) := by
  show commandWord 0 0x6 ∈ legalWords
  decide
theorem LegalWord.rdf (f : Field) : LegalWord.Statement (.rdf f) := by
  cases f <;> (show commandWord _ 0x7 ∈ legalWords; decide)
theorem LegalWord.wrf (f : Field) (data : Word) : LegalWord.Statement (.wrf f data) := by
  cases f <;> (show commandWord _ 0x8 ∈ legalWords; decide)

end Sys2Proof.Laws
end

