-- ==== Sys2Proof/Machine/CommandText.lean ====
section
/-! DEFINITION. The command text of 30_encoding.md R64: a command as its mnemonic followed by its operands, one command a
line and no pseudo-commands (R65). Nothing of the machine depends on it. -/

namespace Sys2Proof.Machine

/-- The name of a field (30_encoding.md R61). -/
def fieldName : Field → String
  | .source => "source"
  | .destination => "destination"
  | .sequence => "sequence"
  | .acknowledgment => "acknowledgment"
  | .data_offset => "data_offset"
  | .control_bits => "control_bits"
  | .window_size => "window_size"
  | .checksum => "checksum"
  | .urgent_pointer => "urgent_pointer"

/-- A hexadecimal digit, capital. -/
def hexDigit (n : Nat) : Char :=
  if n < 10 then Char.ofNat (48 + n) else Char.ofNat (55 + n)

/-- One byte inside the quotes: `\xNN`, or the character whose ASCII byte it is (30_encoding.md R64). DESIGN CHOICE (log
22): the quote, the backslash and every byte that is no printable ASCII character are written as `\xNN`. -/
def byteText (b : Byte) : String :=
  if 0x20 ≤ b.toNat ∧ b.toNat < 0x7F ∧ b.toNat ≠ 0x22 ∧ b.toNat ≠ 0x5C then
    String.singleton (Char.ofNat b.toNat)
  else
    "\\x" ++ String.singleton (hexDigit (b.toNat / 16)) ++ String.singleton (hexDigit (b.toNat % 16))

/-- A text operand in quotes, with its length where that differs from the count of bytes shown (30_encoding.md R64). -/
def portTextText (t : PortText) : String :=
  "\"" ++ String.join (t.text.map byteText) ++ "\"" ++
    (if t.len = t.text.length then "" else ", len=" ++ Nat.repr t.len)

/-- A command as text (30_encoding.md R64). -/
def commandText : Instr → String
  | .init => "INIT"
  | .setSrc t => "SETSRC " ++ portTextText t
  | .setDst t => "SETDST " ++ portTextText t
  | .mutate none => "MUTATE"
  | .mutate (some l) => "MUTATE " ++ Nat.repr l.token
  | .pack => "PACK"
  | .unpack => "UNPACK"
  | .parse t => "PARSE " ++ portTextText t
  | .rdf f => "RDF " ++ fieldName f
  | .wrf f data => "WRF " ++ fieldName f ++ ", " ++ Nat.repr data.toNat

end Sys2Proof.Machine
end

