-- ==== Sys2Proof/Tests/Slice0.lean ====
section
/-! SUPPORT. The model's own tests. Expected results are vectors of spec/95_test_vectors.md, named by their row, or
words written out from spec/30_encoding.md. After them one witness per statement that has hypotheses. -/

namespace Sys2Proof.Tests

open Sys2Proof.Machine

/-! ### Helpers -/

/-- The outcome is a next state with this property. -/
def nextHas (o : Host.Outcome State Fault Refusal) (q : State → Bool) : Bool :=
  match o with
  | .next t => q t
  | .fault _ => false
  | .refused _ => false

/-- The outcome is this refusal. -/
def refusedWith (o : Host.Outcome State Fault Refusal) (r : Refusal) : Bool :=
  match o with
  | .next _ => false
  | .fault _ => false
  | .refused r' => decide (r' = r)

/-- The status of the answer. -/
def st (s : State) : Option Status := s.answer.map Answer.st

/-- The state after reset, holding a Segment and a Buffer, with one granted reservation to come. -/
def holding (g : Segment) (bs : List Byte) : State :=
  { State.reset with seg := g, buf := Memory.ofBytes bs, reserves := [.ok] }

/-- The same with a callback attached that will answer `a`. -/
def mutating (g : Segment) (a : CallbackAnswer) : State :=
  { holding g [] with mutator := some ⟨3⟩, callbacks := [a] }

/-- The defaults of row B1. -/
def defaults : Segment := ⟨0, 0, 0, 0, 5, 0, 1, 0, 0⟩

/-- The Segment of row P2. -/
def segP2 : Segment := ⟨80, 65535, 0x12345678, 0x9ABCDEF0, 15, 0x012, 0x2000, 0xBEEF, 0x0102⟩

/-- The header of row P2. -/
def bytesP2 : List Byte :=
  [0x00, 0x50, 0xFF, 0xFF, 0x12, 0x34, 0x56, 0x78, 0x9A, 0xBC, 0xDE, 0xF0, 0x50, 0x12, 0x20, 0x00, 0x00, 0x00, 0x01, 0x02]

/-- The Buffer of row Q1. -/
def bytesQ1 : List Byte :=
  [0x1F, 0x90, 0xC0, 0x01, 0xDE, 0xAD, 0xBE, 0xEF, 0x00, 0x00, 0x00, 0x01, 0xAF, 0x29, 0xFF, 0xFF, 0xBE, 0xEF, 0x80, 0x00]

/-- The Segment of row Q1. -/
def segQ1 : Segment := ⟨0x1F90, 0xC001, 0xDEADBEEF, 1, 10, 0x129, 0xFFFF, 0xBEEF, 0x8000⟩

/-- The text "80" (row A3). -/
def text80 : PortText := ⟨[0x38, 0x30], 2⟩

/-- The text "8a" (row A19). -/
def text8a : PortText := ⟨[0x38, 0x61], 2⟩

/-- The text "65536" (row A8). -/
def text65536 : PortText := ⟨[0x36, 0x35, 0x35, 0x33, 0x36], 5⟩

/-! ### WellFormed refuses ill-formed terms -/

theorem test_wf_refuses_short_text :
    (Instr.setSrc ⟨[0x38], 2⟩).wf = false ∧ (Instr.setDst ⟨[], 1⟩).wf = false ∧
    (Instr.parse ⟨[0x31, 0x32, 0x33, 0x34], 9⟩).wf = false := by decide

/-- The smallest data too wide for each field (R61, R62); the two 32-bit fields take every word. -/
theorem test_wf_refuses_wide_data :
    [(Field.source, 0x10000), (.destination, 0x10000), (.data_offset, 0x10), (.control_bits, 0x200),
     (.window_size, 0x10000), (.checksum, 0x10000), (.urgent_pointer, 0x10000)].all
      (fun (x : Field × Word) => !(Instr.wrf x.1 x.2).wf) = true := by decide

/-- The widest data that fits each field. -/
theorem test_wf_accepts_widest_data :
    [(Field.source, 0xFFFF), (.destination, 0xFFFF), (.sequence, 0xFFFFFFFF), (.acknowledgment, 0xFFFFFFFF),
     (.data_offset, 0xF), (.control_bits, 0x1FF), (.window_size, 0xFFFF), (.checksum, 0xFFFF),
     (.urgent_pointer, 0xFFFF)].all (fun (x : Field × Word) => (Instr.wrf x.1 x.2).wf) = true := by decide

/-! ### Words written out from 30_encoding.md R60, R61: selector nibble, operation nibble -/

theorem test_decode_init : decode ⟨0b0000_0000#8, ⟨[], 0⟩, none, 0⟩ = .ok .init := by decide
theorem test_decode_setsrc : decode ⟨0b0000_0001#8, text80, none, 0⟩ = .ok (.setSrc text80) := by decide
theorem test_decode_setdst : decode ⟨0b0000_0010#8, text80, none, 0⟩ = .ok (.setDst text80) := by decide
theorem test_decode_mutate : decode ⟨0b0000_0011#8, ⟨[], 0⟩, some ⟨9⟩, 0⟩ = .ok (.mutate (some ⟨9⟩)) := by decide
theorem test_decode_pack : decode ⟨0b0000_0100#8, ⟨[], 0⟩, none, 0⟩ = .ok .pack := by decide
theorem test_decode_unpack : decode ⟨0b0000_0101#8, ⟨[], 0⟩, none, 0⟩ = .ok .unpack := by decide
theorem test_decode_parse : decode ⟨0b0000_0110#8, text80, none, 0⟩ = .ok (.parse text80) := by decide

/-- Row B2: the nine RDF words. -/
theorem test_decode_rdf :
    [0b0000_0111#8, 0b0001_0111#8, 0b0010_0111#8, 0b0011_0111#8, 0b0100_0111#8, 0b0101_0111#8, 0b0110_0111#8,
     0b0111_0111#8, 0b1000_0111#8].map (fun w => decode ⟨w, ⟨[], 0⟩, none, 0⟩) =
    [.ok (.rdf .source), .ok (.rdf .destination), .ok (.rdf .sequence), .ok (.rdf .acknowledgment),
     .ok (.rdf .data_offset), .ok (.rdf .control_bits), .ok (.rdf .window_size), .ok (.rdf .checksum),
     .ok (.rdf .urgent_pointer)] := by decide

/-- The nine WRF words, data 3. -/
theorem test_decode_wrf :
    [0b0000_1000#8, 0b0001_1000#8, 0b0010_1000#8, 0b0011_1000#8, 0b0100_1000#8, 0b0101_1000#8, 0b0110_1000#8,
     0b0111_1000#8, 0b1000_1000#8].map (fun w => decode ⟨w, ⟨[], 0⟩, none, 3⟩) =
    [.ok (.wrf .source 3), .ok (.wrf .destination 3), .ok (.wrf .sequence 3), .ok (.wrf .acknowledgment 3),
     .ok (.wrf .data_offset 3), .ok (.wrf .control_bits 3), .ok (.wrf .window_size 3), .ok (.wrf .checksum 3),
     .ok (.wrf .urgent_pointer 3)] := by decide

/-- Rows B8, B9, and the other verdicts of R62. -/
theorem test_decode_rejects_by_name :
    decode ⟨0x97, ⟨[], 0⟩, none, 0⟩ = .error (.unassignedSel 9) ∧
    decode ⟨0x48, ⟨[], 0⟩, none, 0x10⟩ = .error (.overWideData .data_offset 0x10) ∧
    decode ⟨0x14, ⟨[], 0⟩, none, 0⟩ = .error (.straySel 1) ∧
    decode ⟨0x09, ⟨[], 0⟩, none, 0⟩ = .error (.unassignedOp 9) ∧
    decode ⟨0x06, ⟨[0x38], 2⟩, none, 0⟩ = .error (.shortText ⟨[0x38], 2⟩) := by decide

/-- Exactly the 25 words of R66 are legal when the operand ports are at zero. -/
theorem test_legal_words_counted :
    ((List.range 256).filter (fun w => (decodeTableWord 8 w).isSome)).length = 25 := by decide

/-- Words on the way out: programs 1 and 3 of section 3. -/
theorem test_encode_words :
    (encode (.wrf .sequence 1000)).cw = 0x28 ∧ (encode (.wrf .control_bits 2)).cw = 0x58 ∧
    (encode (.rdf .checksum)).cw = 0x77 ∧ (encode .unpack).cw = 0x05 ∧ (encode (.setDst text80)).text = text80 := by decide

/-- Each row of the opcode table decodes, and runs as the first command after reset. -/
theorem test_rows_run_after_reset :
    [0x00, 0x01, 0x02, 0x03, 0x05, 0x06, 0x07, 0x08, 0x87, 0x88].all
      (fun w => (decodeTableWord 8 w).isSome && nextHas (step (State.reset.withFetchWord 8 w)) (fun t => t.answer.isSome))
      = true := by decide

/-- The same of PACK, whose answer from reset is the Buffer's, a free value. -/
theorem test_pack_runs_after_reset :
    decodeTableWord 8 0x04 = some .pack ∧ ∃ t, step (State.reset.withFetchWord 8 0x04) = .next t := ⟨by decide, _, rfl⟩

/-! ### The machine as a whole -/

theorem test_core_is_the_step : Sys2Proof.core.step = step ∧ Sys2Proof.core.reset = State.reset := ⟨rfl, rfl⟩

theorem test_reset_memory_is_canonical : State.reset.buf.wf = true := by decide

/-- A step on two inputs takes the older one, and the other waits. -/
theorem test_inputs_in_order :
    nextHas (step { State.reset with inputs := [.putBuffer [0xDE, 0xAD], .present (encode .init)] })
      (fun t => t.buf == [(0, 0xDE), (1, 0xAD)] && t.inputs == [.present (encode .init)] && t.answer == none) = true := by
  decide

/-- R64, as the rows of programs 1 and 3 write their commands. -/
theorem test_command_text :
    commandText (.setDst text80) = "SETDST \"80\"" ∧ commandText (.wrf .sequence 1000) = "WRF sequence, 1000" ∧
    commandText (.rdf .data_offset) = "RDF data_offset" ∧ commandText (.parse ⟨[0x38, 0x30, 0x00], 2⟩) =
      "PARSE \"80\\x00\", len=2" := by decide

/-! ### Meanings -/

/-- Row B1. -/
theorem test_init : nextHas (exec .init (holding segP2 [])) (fun t => t.seg == defaults && st t == some .none) = true := by
  decide

/-- Program 1, step 2. -/
theorem test_setsrc :
    nextHas (exec (.setSrc ⟨[0x31, 0x32, 0x33, 0x34], 4⟩) (holding defaults []))
      (fun t => t.seg == { defaults with source := 0x04D2 } && st t == some .none) = true := by decide

/-- Row B10: only `source` is spoiled. -/
theorem test_setsrc_badfield :
    nextHas (exec (.setSrc text65536) (holding defaults []))
      (fun t => t.seg.destination == 0 && t.seg.window_size == 1 && st t == some .badField) = true := by decide

/-- Program 1, step 3. -/
theorem test_setdst :
    nextHas (exec (.setDst text80) (holding defaults []))
      (fun t => t.seg == { defaults with destination := 0x0050 } && st t == some .none) = true := by decide

/-- Row A19 through SETDST. -/
theorem test_setdst_badfield :
    nextHas (exec (.setDst text8a) (holding segP2 [])) (fun t => t.seg.source == 80 && st t == some .badField) = true := by
  decide

/-- Row M3: the callback sets RST. -/
theorem test_mutate :
    nextHas (exec (.mutate none) (mutating defaults ⟨{ defaults with control_bits := 0x004 }, .none⟩))
      (fun t => t.seg == { defaults with control_bits := 0x004 } && st t == some .none &&
        t.call == some ⟨⟨3⟩, defaults, none⟩) = true := by decide

/-- Row M5: the status is passed through, and SEG is as the callback left it. -/
theorem test_mutate_badfield :
    nextHas (exec (.mutate none) (mutating defaults ⟨{ defaults with source := 7 }, .badField⟩))
      (fun t => t.seg == { defaults with source := 7 } && st t == some .badField) = true := by decide

/-- Row P5. -/
theorem test_pack :
    nextHas (exec .pack (holding segP2 [0xAA, 0xBB, 0xCC]))
      (fun t => t.buf == Memory.ofBytes (bytesP2 ++ [0xAA, 0xBB, 0xCC]) && t.seg == { segP2 with data_offset := 5 } &&
        st t == some .none) = true := by decide

/-- Row P6. -/
theorem test_pack_failing :
    nextHas (exec .pack { holding segP2 [0xAA, 0xBB, 0xCC] with reserves := [.fail (.foreign 12) []] })
      (fun t => t.seg.source == 80 && t.seg.checksum == 0xBEEF && st t == some (.foreign 12)) = true := by decide

/-- Row Q1. -/
theorem test_unpack :
    nextHas (exec .unpack (holding defaults bytesQ1))
      (fun t => t.seg == segQ1 && t.buf == Memory.ofBytes bytesQ1 && st t == some .none) = true := by decide

/-- Row Q5. -/
theorem test_unpack_short :
    nextHas (exec .unpack (holding defaults (List.replicate 19 0)))
      (fun t => t.buf.size == 19 && st t == some .missingData) = true := by decide

/-- Rows A1, A4, A5, A7, A11, A15, A17, A25, A29: accepted texts. -/
theorem test_parse :
    [⟨[0x30], 1⟩, ⟨[0x30, 0x39], 2⟩, ⟨[0x30, 0x30, 0x30, 0x38, 0x30], 5⟩, ⟨[0x36, 0x35, 0x35, 0x33, 0x35], 5⟩,
     ⟨[0x31, 0x32, 0x33, 0x34, 0x35, 0x36], 6⟩, ⟨[0x30, 0x30, 0x30, 0x30, 0x30, 0x31], 6⟩,
     ⟨[0x31, 0x32, 0x33, 0x34, 0x35, 0x78], 6⟩, ⟨[0x38, 0x30, 0x00], 2⟩, ⟨[], 0⟩].map parsePort =
    [.ok 0, .ok 9, .ok 80, .ok 65535, .ok 12345, .ok 0, .ok 12345, .ok 80, .ok 0] := by decide

/-- Rows A8, A10, A13, A18, A19, A20, A22, A24, A26, A27, A28: BadField. -/
theorem test_parse_badfield :
    [text65536, ⟨[0x39, 0x39, 0x39, 0x39, 0x39], 5⟩, ⟨[0x36, 0x35, 0x35, 0x33, 0x36, 0x30], 6⟩,
     ⟨[0x31, 0x32, 0x33, 0x34, 0x78, 0x36], 6⟩, text8a, ⟨[0x2D, 0x31], 2⟩, ⟨[0x20, 0x38, 0x30], 3⟩,
     ⟨[0x38, 0x30, 0x00], 3⟩, ⟨[0x2F], 1⟩, ⟨[0x3A], 1⟩, ⟨[0x36, 0x35, 0x35, 0x33, 0xB5], 5⟩].all
      (fun t => parsePort t == .badField) = true := by decide

/-- Row B2, and program 2 step 2 on the Segment of row Q1: as found on the wire, not 5. -/
theorem test_rdf :
    (nextHas (exec (.rdf .window_size) (holding defaults [])) (fun t => t.answer == some ⟨.none, .field 1⟩) &&
     nextHas (exec (.rdf .data_offset) (holding segQ1 [])) (fun t => t.answer == some ⟨.none, .field 10⟩)) = true := by
  decide

/-- Rows B3, B4, B5. -/
theorem test_wrf :
    (nextHas (exec (.wrf .data_offset 15) (holding defaults [])) (fun t => t.seg == { defaults with data_offset := 15 }) &&
     nextHas (exec (.wrf .control_bits 0x1FF) (holding defaults []))
       (fun t => t.seg == { defaults with control_bits := 0x1FF }) &&
     nextHas (exec (.wrf .sequence 0xFFFFFFFF) (holding defaults []))
       (fun t => t.seg == { defaults with sequence := 0xFFFFFFFF })) = true := by decide

/-- Row B8 at the meaning. -/
theorem test_wrf_overwide :
    refusedWith (exec (.wrf .data_offset 0x10) (holding defaults []))
      (.notACommand (.overWideData .data_offset 0x10)) = true := by decide

/-- Rows K1 to K9: bytes 12 and 13 for each flag alone, on encode. -/
theorem test_flags_on_the_wire :
    [ControlFlag.FIN, .SYN, .RST, .PSH, .ACK, .URG, .ECE, .CWR, .NS].map (fun f =>
      let h := wireHeader { defaults with control_bits := flagMask f }
      (byteAt h 12, byteAt h 13)) =
    [(0x50, 0x01), (0x50, 0x02), (0x50, 0x04), (0x50, 0x08), (0x50, 0x10), (0x50, 0x20), (0x50, 0x40), (0x50, 0x80),
     (0x51, 0x00)] := by decide

/-- A safe run: program 1 of section 3 ends without a failure (statuses only). -/
theorem test_safe_run :
    (safeRun 2 { State.reset with inputs := [.present (encode .init), .present (encode (.setDst text80))] }).isSome = true := by
  decide

/-! ### Witnesses: for each statement with hypotheses, states and operands that meet all of them, at the ends of the
ranges of each clause -/

/-- One command of each kind, well formed. -/
def nine : List Instr :=
  [.init, .setSrc text80, .setDst text65536, .mutate (some ⟨1⟩), .pack, .unpack, .parse text80, .rdf .checksum,
   .wrf .control_bits 0x1FF]

/-- Every kind of command answers None or a failure from one state of canonical form. -/
theorem witness_WellFormedCommandsComplete :
    (∀ i ∈ nine, i.wf = true) ∧ (holding segP2 bytesQ1).buf.wf = true ∧
    nine.all (fun i => nextHas (exec i (holding segP2 bytesQ1)) (fun t => t.answer.isSome)) = true := by decide

theorem witness_ResetSpoilsOnlySeg :
    { holding segP2 bytesQ1 with inputs := [.reset, .reset] }.inputs = .reset :: [.reset] := rfl

theorem witness_IdleStepOnlyQuietsOutputs : (holding segP2 bytesQ1).inputs = [] := rfl

theorem witness_StepRunsThePresentedCommand :
    ({ State.reset with inputs := [.present (encode .unpack)] }.inputs = .present (encode .unpack) :: [] ∧
      decode (encode .unpack) = .ok .unpack) ∧
    decodeTableWord 8 0x88 = some (.wrf .urgent_pointer 0) := by decide

theorem witness_StepRefusesWhatIsNoCommand :
    decode ⟨0x97, text80, none, 0⟩ = .error (.unassignedSel 9) ∧
    { State.reset with inputs := [.present ⟨0x97, text80, none, 0⟩] }.inputs = .present ⟨0x97, text80, none, 0⟩ :: [] ∧
    { State.reset with inputs := [.overlap (encode .pack) (encode .init)] }.inputs =
      .overlap (encode .pack) (encode .init) :: [] ∧
    { State.reset with inputs := [.bufferRace (encode .pack)] }.inputs = .bufferRace (encode .pack) :: [] := by decide

theorem witness_DecodeInvertsEncode :
    (Instr.wrf .data_offset 0xF).wf = true ∧ (Instr.wrf .sequence 0xFFFFFFFF).wf = true ∧
    (Instr.setSrc ⟨[], 0⟩).wf = true ∧ (Instr.parse ⟨[0x31, 0x32, 0x33, 0x34, 0x35], 6⟩).wf = true := by decide

theorem witness_OpcodeRowsTellCommandsApart :
    (⟨"RDF", 0x07, 0x0F⟩ : OpcodeRow) ∈ opcodeRows ∧ (0x87 : Byte) &&& 0x0F = 0x07 ∧
    decode ⟨0x87, ⟨[], 0⟩, none, 0⟩ = .ok (.rdf .urgent_pointer) := by decide

theorem witness_StatusOutputBitsRoundTrip :
    (∀ e, Status.none ≠ .foreign e) ∧ ∀ e, Status.missingData ≠ .foreign e :=
  ⟨(fun _ h => by cases h), fun _ h => by cases h⟩

/-- No byte, and the full five of a longer text. -/
theorem witness_ParserReadsScannedDigitsAsDecimal :
    min 0 5 ≤ ([] : List Byte).length ∧ min 6 5 ≤ [0x31, 0x32, 0x33, 0x34, (0x35 : Byte)].length ∧
    min text65536.len 5 ≤ text65536.text.length := by decide

theorem witness_ParserTruncatesToFiveCharacters :
    5 < 6 ∧ [0x31, 0x32, 0x33, 0x34, (0x35 : Byte)].length = 5 ∧
    5 ≤ [0x31, 0x32, 0x33, 0x34, 0x35, (0x36 : Byte)].length ∧
    ([Instr.parse, Instr.setSrc, Instr.setDst].all fun command =>
      nextHas (exec (command ⟨[0x31, 0x32, 0x33, 0x34, 0x35, 0x36], 6⟩) State.reset) (fun t => st t == some .none)) = true := by
  decide

/-- The first and the last position that is scanned, with the bytes just outside the digits. -/
theorem witness_NonDigitAtScannedPositionFails :
    (min 1 5 ≤ [(0x2F : Byte)].length ∧ 0 < min 1 5 ∧ [(0x2F : Byte)][0]? = some 0x2F ∧ (0x2F : Byte).toNat < 0x30) ∧
    (min 6 5 ≤ [0x31, 0x32, 0x33, 0x34, (0x3A : Byte)].length ∧ 4 < min 6 5 ∧
      [0x31, 0x32, 0x33, 0x34, (0x3A : Byte)][4]? = some 0x3A ∧ 0x39 < (0x3A : Byte).toNat) := by decide

/-- The last value in range, the first one beyond, and the largest. -/
theorem witness_ParserRangeCheckOnFullValue :
    1 ≤ text65536.len ∧ accumulate 0 (text65536.text.take (min text65536.len 5)) = some 65536 ∧
    parsePort ⟨[0x36, 0x35, 0x35, 0x33, 0x35], 5⟩ = .ok 65535 ∧ parsePort text65536 = .badField ∧ 99999 ≤ 99999 ∧
    ([0x39, 0x39, 0x39, 0x39] : List Byte).length ≤ 4 ∧ 1 ≤ ([0x30] : List Byte).length ∧
    (∀ c ∈ ([0x30, 0x39] : List Byte), 0x30 ≤ c.toNat ∧ c.toNat ≤ 0x39) := by decide

theorem witness_AccumulatorNeedsSeventeenBits :
    [0x39, 0x39, 0x39, 0x39, (0x39 : Byte)].length ≤ 5 ∧ accumulate 0 [0x39, 0x39, 0x39, 0x39, 0x39] = some 99999 := by
  decide

theorem witness_ParseAnswersPortOrBadField :
    (min text80.len 5 ≤ text80.text.length ∧ parsePort text80 = .ok 80) ∧
    (min text65536.len 5 ≤ text65536.text.length ∧ parsePort text65536 = .badField) := by decide

theorem witness_SetSrcStoresOrSpoilsSource :
    (min text80.len 5 ≤ text80.text.length ∧ parsePort text80 = .ok 80) ∧
    (min text8a.len 5 ≤ text8a.text.length ∧ parsePort text8a = .badField) := by decide

theorem witness_SetDstStoresOrSpoilsDestination :
    (min 0 5 ≤ ([] : List Byte).length ∧ parsePort ⟨[], 0⟩ = .ok 0) ∧
    (min text65536.len 5 ≤ text65536.text.length ∧ parsePort text65536 = .badField) := by decide

/-- Both sides of each equivalence are met: an accepted and a rejected text. -/
theorem witness_SettersAgreeWithParse :
    nextHas (exec (.parse text80) State.reset) (fun t => t.answer == some ⟨.none, .port 80⟩) = true ∧
    nextHas (exec (.setSrc text80) State.reset) (fun t => t.seg.source == 80) = true ∧
    nextHas (exec (.parse text8a) State.reset) (fun t => st t == some .badField) = true ∧
    nextHas (exec (.setDst text8a) State.reset) (fun t => st t == some .badField) = true := by decide

theorem witness_InitLoadsDefaults : ∃ t, exec .init (holding segP2 bytesQ1) = .next t := ⟨_, rfl⟩

theorem witness_RdfAnswersZeroExtendedField :
    (Field.urgent_pointer, segP2.urgent_pointer.toNat) ∈
      [(Field.source, segP2.source.toNat), (.urgent_pointer, segP2.urgent_pointer.toNat)] := by decide

/-- The largest data of each width. -/
theorem witness_WrfWritesTheSelectedField :
    (0xFFFF : Word).toNat < 2 ^ 16 ∧ (0xF : Word).toNat < 2 ^ 4 ∧ (0x1FF : Word).toNat < 2 ^ 9 := by decide

theorem witness_WrfReadBackAndFieldsApart :
    nextHas (exec (.wrf .control_bits 0x1FF) (holding segP2 [])) (fun t => t.seg.control_bits == 0x1FF) = true ∧
    Field.checksum ≠ .control_bits := by decide

theorem witness_IllFormedCommandsAreRefused :
    (Instr.wrf .control_bits 0x200).wf = false ∧ (Instr.parse ⟨[0x38], 2⟩).wf = false := by decide

theorem witness_BufferReadsAreBigEndian :
    (Memory.ofBytes bytesQ1).read 18 = some 0x80 ∧ (Memory.ofBytes bytesQ1).read 19 = some 0x00 ∧
    (Memory.ofBytes bytesQ1).read 4 = some 0xDE ∧ (Memory.ofBytes bytesQ1).read 5 = some 0xAD ∧
    (Memory.ofBytes bytesQ1).read 6 = some 0xBE ∧ (Memory.ofBytes bytesQ1).read 7 = some 0xEF ∧
    20 ≤ (holding defaults bytesQ1).buf.size ∧
    ∀ k, k < 20 → (holding defaults bytesQ1).buf.read k = some (byteAt bytesQ1 k) := by decide

theorem witness_BufferWritesAreBigEndian :
    ((Memory.ofBytes bytesQ1).read 19).isSome = true ∧
    (∀ i, i < 2 → ((Memory.ofBytes bytesQ1).read (18 + i)).isSome = true) ∧
    (∀ i, i < 4 → ((Memory.ofBytes bytesQ1).read (16 + i)).isSome = true) ∧
    (holding segP2 bytesQ1).reserves = .ok :: [] := by decide

theorem witness_EqualReadsAreEqualBuffers :
    (Memory.ofBytes bytesQ1).wf = true ∧ ∀ off, (Memory.ofBytes bytesQ1).read off = (Memory.ofBytes bytesQ1).read off :=
  ⟨by decide, fun _ => rfl⟩

theorem witness_PackPrependsWireHeader :
    (holding segP2 [0xAA]).Inv ∧ (holding segP2 [0xAA]).reserves = .ok :: [] := ⟨rfl, rfl⟩

/-- A granted reservation, a refused one, and none listed. -/
theorem witness_PackAlwaysAnswers :
    (holding segP2 [0xAA]).Inv ∧ { holding segP2 [] with reserves := [.fail .missingData []] }.Inv ∧ State.reset.Inv :=
  ⟨rfl, rfl, rfl⟩

theorem witness_FailingPackPassesBufferError :
    { holding segP2 [0xAA] with reserves := [.fail .badField [], .fail .missingData [], .fail (.foreign 1) [0]] }.reserves =
      .fail .badField [] :: [.fail .missingData [], .fail (.foreign 1) [0]] := rfl

/-- A successful PACK, on an empty and on a longer Buffer. -/
theorem witness_PackMovesOldBytesByTwenty :
    (∃ t, exec .pack (holding segP2 []) = .next t ∧ t.answer = some ⟨.none, .absent⟩) ∧
    (∃ t, exec .pack (holding segP2 bytesQ1) = .next t ∧ t.answer = some ⟨.none, .absent⟩) :=
  ⟨⟨_, rfl, rfl⟩, ⟨_, rfl, rfl⟩⟩

theorem witness_PackForcesDataOffsetFive :
    (holding segP2 []).reserves = .ok :: [] ∧
    ∃ t, exec .pack (holding segP2 []) = .next t ∧ t.answer = some ⟨.none, .absent⟩ := ⟨rfl, _, rfl, rfl⟩

theorem witness_PackIgnoresDataOffsetAndChecksum : (holding segP2 bytesQ1).reserves = .ok :: [] := rfl

/-- A PACK with FIN alone, and an UNPACK with byte 13 listed. -/
theorem witness_ControlFlagsOnTheWire :
    (∃ t, exec .pack (holding { defaults with control_bits := flagMask .FIN } []) = .next t ∧
      t.answer = some ⟨.none, .absent⟩) ∧
    (∃ t, exec .unpack (holding defaults bytesQ1) = .next t ∧ t.answer = some ⟨.none, .absent⟩) ∧
    (holding defaults bytesQ1).buf.read 13 = some 0x29 := ⟨⟨_, rfl, rfl⟩, ⟨_, rfl, rfl⟩, by decide⟩

/-- Bytes 12 that differ in the reserved bits only, with nothing behind the header and with more. -/
theorem witness_Byte12OnEncodeAndDecode :
    (∃ t, exec .pack (holding defaults []) = .next t ∧ t.answer = some ⟨.none, .absent⟩) ∧
    (∃ t, exec .unpack (holding defaults bytesQ1) = .next t ∧ t.answer = some ⟨.none, .absent⟩) ∧
    (holding defaults bytesQ1).buf.read 12 = some 0xAF ∧ (bytesQ1.take 12).length = 12 ∧
    7 ≤ (bytesQ1.drop 13).length ∧ (0xAF : Byte) &&& 0xF1 = 0xA1 &&& 0xF1 :=
  ⟨⟨_, rfl, rfl⟩, ⟨_, rfl, rfl⟩, by decide⟩

/-- 20 bytes, and 19. -/
theorem witness_UnpackLoadsWireFields :
    (holding defaults bytesQ1).Inv ∧ 20 ≤ (holding defaults bytesQ1).buf.size ∧
    (holding defaults (bytesQ1.drop 1)).buf.size < 20 := ⟨rfl, by decide, by decide⟩

/-- 19 bytes and 20 bytes. -/
theorem witness_UnpackFailsExactlyWhenShort :
    ((holding defaults (List.replicate 19 0)).Inv ∧ (holding defaults (List.replicate 19 0)).buf.size < 20) ∧
    ((holding defaults bytesQ1).Inv ∧ 20 ≤ (holding defaults bytesQ1).buf.size) :=
  ⟨⟨rfl, by decide⟩, ⟨rfl, by decide⟩⟩

theorem witness_FailingUnpackLeavesBuffer :
    (holding defaults (List.replicate 19 0)).buf.size < 20 ∧ (holding defaults []).buf.size < 20 ∧
    ∃ t, exec .unpack (holding defaults bytesQ1) = .next t := ⟨by decide, by decide, _, rfl⟩

theorem witness_UnpackValidatesOnlyLength :
    20 ≤ bytesQ1.length ∧ (holding defaults bytesQ1).buf = Memory.ofBytes bytesQ1 ∧
    (holding defaults bytesQ1).reserves = .ok :: [] := by decide

theorem witness_UnpackReadsOnlyTheFrontTwenty : bytesQ1.length = 20 ∧ bytesP2.length = 20 := by decide

theorem witness_PackThenUnpackRoundTrip : (holding segP2 []).reserves = .ok :: [] := rfl

/-- The first offset, the three special ones and the last. -/
theorem witness_HeaderAndFieldsInvertEachOther : 0 < 20 ∧ 12 < 20 ∧ 16 < 20 ∧ 17 < 20 ∧ 19 < 20 := by decide

theorem witness_UnpackTwiceIsUnpackOnce :
    ∃ t, exec .unpack (holding defaults bytesQ1) = .next t ∧ t.answer = some ⟨.none, .absent⟩ := ⟨_, rfl, rfl⟩

theorem witness_MutateWithoutCallbackIsNoOp : (holding segP2 []).mutator = none := rfl

theorem witness_MutateTakesCallbackAnswer :
    (mutating defaults ⟨segP2, .badField⟩).mutator = some ⟨3⟩ ∧
    (mutating defaults ⟨segP2, .badField⟩).callbacks = ⟨segP2, .badField⟩ :: [] := ⟨rfl, rfl⟩

theorem witness_OnlyMutateInvokesCallback :
    (∀ l, Instr.pack ≠ .mutate l) ∧ ∃ t, exec .pack (mutating defaults ⟨segP2, .none⟩) = .next t :=
  ⟨(fun _ h => by cases h), _, rfl⟩

/-- A command, a change of the Buffer, a reset. -/
theorem witness_StepKeepsBufferCanonical :
    ({ holding segP2 [0xAA] with inputs := [.present (encode .pack)] }.Inv ∧
      ∃ t, step { holding segP2 [0xAA] with inputs := [.present (encode .pack)] } = .next t) ∧
    ({ holding segP2 [0xAA] with inputs := [.putBuffer bytesQ1] }.Inv ∧
      ∃ t, step { holding segP2 [0xAA] with inputs := [.putBuffer bytesQ1] } = .next t) ∧
    ({ holding segP2 [0xAA] with inputs := [.reset] }.Inv ∧
      ∃ t, step { holding segP2 [0xAA] with inputs := [.reset] } = .next t) :=
  ⟨⟨rfl, _, rfl⟩, ⟨rfl, _, rfl⟩, ⟨rfl, _, rfl⟩⟩

theorem witness_StepNeverFaultsOnCanonicalBuffer :
    { holding segP2 bytesQ1 with inputs := [.present (encode .unpack)] }.Inv := rfl

theorem witness_ConfigurationIsConstant :
    ∃ t, step { mutating defaults ⟨segP2, .none⟩ with inputs := [.reset] } = .next t := ⟨_, rfl⟩

theorem witness_EnvironmentFrame :
    nine.all (fun i => nextHas (exec i (holding segP2 bytesQ1)) (fun _ => true)) = true ∧
    Instr.unpack ≠ .pack ∧ ∀ l, Instr.unpack ≠ .mutate l := ⟨by decide, by decide, fun _ h => by cases h⟩

/-- Each command answers, without a callback, with 20 bytes in the Buffer; two fields are apart. -/
theorem witness_SegmentFrame :
    nine.all (fun i => nextHas (exec i (holding segP2 bytesQ1)) (fun _ => true)) = true ∧
    (holding segP2 bytesQ1).mutator = none ∧ 20 ≤ (holding segP2 bytesQ1).buf.size ∧
    Field.source ≠ .control_bits := by decide

theorem witness_BufferFrame :
    (nine.filter (fun i => decide (i ≠ .pack))).all (fun i =>
      nextHas (exec i (holding segP2 bytesQ1)) (fun t => t.buf.read 19 == some 0x00)) = true := by decide

/-- Each command answers; UNPACK of 19 bytes and of 20. -/
theorem witness_StatusesOfEachCommand :
    nine.all (fun i => nextHas (exec i (holding segP2 bytesQ1)) (fun t => t.answer.isSome)) = true ∧
    nextHas (exec .unpack (holding segP2 (List.replicate 19 0))) (fun t => t.answer.isSome) = true := by decide

theorem witness_StatusIsNotLatched :
    (mutating segP2 ⟨defaults, .none⟩).reserves ≠ [] ∧ (mutating segP2 ⟨defaults, .none⟩).callbacks ≠ [] ∧
    nine.all (fun i => nextHas (exec i (mutating segP2 ⟨defaults, .none⟩)) (fun t => t.answer.isSome)) = true := by decide

theorem witness_MutatorReadOnlyByMutate :
    (∀ l, Instr.wrf .checksum 7 ≠ .mutate l) ∧ (holding segP2 bytesQ1).reserves ≠ [] ∧
    nextHas (exec (.wrf .checksum 7) (holding segP2 bytesQ1)) (fun t => t.answer == some ⟨.none, .absent⟩) = true :=
  ⟨(fun _ h => by cases h), by decide, by decide⟩

theorem witness_BufferReachedOnlyByPackAndUnpack :
    Instr.rdf .source ≠ .pack ∧ Instr.rdf .source ≠ .unpack ∧ (mutating segP2 ⟨defaults, .none⟩).callbacks ≠ [] ∧
    nextHas (exec (.rdf .source) (mutating segP2 ⟨defaults, .none⟩)) (fun t => t.answer == some ⟨.none, .field 80⟩) =
      true := by decide

end Sys2Proof.Tests
end

section
/-! PROOFS. The Buffer's byte order (20_memory.md R37, R38): what the reads of two and four bytes mean as numbers, which
byte of a value the writes put at which offset, and the same for the fields of UNPACK and PACK. -/

namespace Sys2Proof.Machine

/-! ### Reads (20_memory.md R37) -/

/-- A byte joined below a value shifts that value up by one power of 256. -/
theorem toNat_append_byte {n : Nat} (x : BitVec n) (b : Byte) : (x ++ b).toNat = x.toNat * 256 + b.toNat := by
  rw [BitVec.toNat_append, ← Nat.shiftLeft_add_eq_or_of_lt b.isLt, Nat.shiftLeft_eq]

/-- Four joined bytes as a number. -/
theorem toNat_join_four (a b c d : Byte) : (a ++ b ++ c ++ d : Word).toNat =
    a.toNat * 256 ^ 3 + b.toNat * 256 ^ 2 + c.toNat * 256 + d.toNat := by
  rw [toNat_append_byte, toNat_append_byte, toNat_append_byte]
  ring

/-- UNPACK where the front twenty offsets are listed: SEG becomes the fields of 30_encoding.md R54. -/
theorem exec_unpack_of_reads (s : State) (b : Nat → Byte) (hsize : 20 ≤ s.buf.size)
    (hread : ∀ k, k < 20 → s.buf.read k = some (b k)) :
    exec .unpack s = .next ({ s with seg := wireFields b }.answering .none .absent) := by
  have long : ¬ s.buf.size < Config.hdrLen := Nat.not_lt.mpr hsize
  simp only [exec, execUnpack, long, if_false, readHeader_of_reads s.buf b hread]

/-- Settles O28: a read joins the bytes it finds, and each byte joined below is worth one power of 256 less. -/
theorem bufferReadsAreBigEndian : Obligations.BufferReadsAreBigEndian := by
  refine ⟨?half, ?word, ?unpack⟩
  case half =>
    intro m off a b ha hb
    exact ⟨a ++ b, read16_of_reads m off a b ha hb, toNat_append_byte a b⟩
  case word =>
    intro m off a b c d ha hb hc hd
    exact ⟨a ++ b ++ c ++ d, read32_of_reads m off a b c d ha hb hc hd, toNat_join_four a b c d⟩
  case unpack =>
    intro s b hsize hread
    exact ⟨_, exec_unpack_of_reads s b hsize hread, toNat_append_byte _ _, toNat_append_byte _ _,
      toNat_join_four _ _ _ _, toNat_join_four _ _ _ _,
      toNat_append_byte _ _, toNat_append_byte _ _, toNat_append_byte _ _⟩

/-! ### Writes (20_memory.md R38) -/

/-- The two bytes of a half, said per offset: byte `i` counts from the most significant. -/
theorem reads_half (m : Memory) (off : Nat) (v : Half) (h0 : m.read off = some (v.extractLsb' 8 8))
    (h1 : m.read (off + 1) = some (v.extractLsb' 0 8)) :
    ∀ i, i < 2 → m.read (off + i) = some (v.extractLsb' (8 * (1 - i)) 8)
  | 0, _ => h0
  | 1, _ => h1

/-- The four bytes of a word, said per offset: byte `i` counts from the most significant. -/
theorem reads_word (m : Memory) (off : Nat) (v : Word) (h0 : m.read off = some (v.extractLsb' 24 8))
    (h1 : m.read (off + 1) = some (v.extractLsb' 16 8)) (h2 : m.read (off + 2) = some (v.extractLsb' 8 8))
    (h3 : m.read (off + 3) = some (v.extractLsb' 0 8)) :
    ∀ i, i < 4 → m.read (off + i) = some (v.extractLsb' (8 * (3 - i)) 8)
  | 0, _ => h0
  | 1, _ => h1
  | 2, _ => h2
  | 3, _ => h3

/-- A slice of the lower half of a word. -/
theorem slice_lower (v : Word) (s l : Nat) (h : s + l ≤ 16) :
    (v.extractLsb' 0 16).extractLsb' s l = v.extractLsb' s l := by
  ext i hi
  have : s + i < 16 := by omega
  simp [BitVec.getElem_extractLsb', this]

theorem read_write16_other (m : Memory) (off k : Nat) (v : Half) (h : k < off ∨ off + 2 ≤ k) :
    (m.write16 off v).read k = m.read k := by
  rw [Memory.write16, read_write_other _ _ _ _ (by omega), read_write_other _ _ _ _ (by omega)]

theorem read_write16_first (m : Memory) (off : Nat) (v : Half) (h : (m.read off).isSome) :
    (m.write16 off v).read off = some (v.extractLsb' 8 8) := by
  rw [Memory.write16, read_write_other _ _ _ _ (by omega), read_write_same _ _ _ h]

theorem read_write16_second (m : Memory) (off : Nat) (v : Half) (h : (m.read (off + 1)).isSome) :
    (m.write16 off v).read (off + 1) = some (v.extractLsb' 0 8) := by
  rw [Memory.write16, read_write_same _ _ _ (by rwa [read_write_other _ _ _ _ (by omega)])]

/-- A half written at two listed offsets, the most significant byte first. -/
theorem read_write16 (m : Memory) (off : Nat) (v : Half) (h : ∀ i, i < 2 → (m.read (off + i)).isSome = true) :
    ∀ i, i < 2 → (m.write16 off v).read (off + i) = some (v.extractLsb' (8 * (1 - i)) 8) :=
  reads_half _ off v (read_write16_first m off v (h 0 (by decide))) (read_write16_second m off v (h 1 (by decide)))

theorem read_write32_other (m : Memory) (off k : Nat) (v : Word) (h : k < off ∨ off + 4 ≤ k) :
    (m.write32 off v).read k = m.read k := by
  rw [Memory.write32, read_write16_other _ _ _ _ (by omega), read_write16_other _ _ _ _ (by omega)]

/-- The upper half of a word is written at the first two offsets; the write of the lower half leaves it there. -/
theorem read_write32_upper (m : Memory) (off k : Nat) (v : Word) (h : k < off + 2) :
    (m.write32 off v).read k = (m.write16 off (v.extractLsb' 16 16)).read k := by
  rw [Memory.write32, read_write16_other _ _ _ _ (by omega)]

/-- A word written at four listed offsets, the most significant byte first. -/
theorem read_write32 (m : Memory) (off : Nat) (v : Word) (h : ∀ i, i < 4 → (m.read (off + i)).isSome = true) :
    ∀ i, i < 4 → (m.write32 off v).read (off + i) = some (v.extractLsb' (8 * (3 - i)) 8) := by
  have listed : ∀ i, 2 ≤ i → i < 4 → ((m.write16 off (v.extractLsb' 16 16)).read (off + i)).isSome = true :=
    fun i h2 h4 => by rw [read_write16_other _ _ _ _ (by omega), h i h4]
  apply reads_word
  · rw [read_write32_upper _ _ _ _ (by omega), read_write16_first _ off _ (h 0 (by decide)),
      slice_upper _ _ _ (by decide)]
  · rw [read_write32_upper _ _ _ _ (by omega), read_write16_second _ _ _ (h 1 (by decide)),
      slice_upper _ _ _ (by decide)]
  · rw [Memory.write32, read_write16_first _ _ _ (listed 2 (by decide) (by decide)), slice_lower _ _ _ (by decide)]
  · rw [Memory.write32, read_write16_second _ _ _ (listed 3 (by decide) (by decide)), slice_lower _ _ _ (by decide)]

/-- PACK whose reservation is granted: the header of 30_encoding.md R53 is the front of the Buffer. -/
theorem exec_pack_of_reserved (s : State) (rest : List ReserveAnswer) (h : s.reserves = .ok :: rest) :
    ∃ t, exec .pack s = .next t ∧ t.buf = s.buf.reserve (wireHeader s.seg) := by
  refine ⟨packReserved s.afterReserve, ?_, ?_⟩
  · simp only [exec, execPack, reserveAnswer_listed s _ _ _ h]
  · rw [packReserved_eq, afterReserve_listed s _ _ h]

/-- Settles O29: a write of a half is two writes of a byte, one of a word two writes of a half, and what PACK leaves at
the front of the Buffer is the header, whose bytes are those slices. -/
theorem bufferWritesAreBigEndian : Obligations.BufferWritesAreBigEndian := by
  refine ⟨?byte, ?half, ?word, by decide, ?pack⟩
  case byte =>
    intro m off v h
    exact ⟨read_write_same m off v h, fun k hk => read_write_other m off k v hk⟩
  case half =>
    intro m off v h
    exact ⟨read_write16 m off v h, fun k hk => read_write16_other m off k v hk⟩
  case word =>
    intro m off v h
    exact ⟨read_write32 m off v h, fun k hk => read_write32_other m off k v hk⟩
  case pack =>
    intro s rest h
    obtain ⟨t, hexec, hbuf⟩ := exec_pack_of_reserved s rest h
    have front : ∀ k, k < 20 → t.buf.read k = (wireHeader s.seg)[k]? := fun k hk => by
      rw [hbuf, read_reserve_front _ _ _ hk]
    have source := reads_half _ 0 _ (front 0 (by decide)) (front 1 (by decide))
    exact ⟨t, hexec, by simpa only [Nat.zero_add] using source,
      reads_half _ 2 _ (front 2 (by decide)) (front 3 (by decide)),
      reads_word _ 4 _ (front 4 (by decide)) (front 5 (by decide)) (front 6 (by decide)) (front 7 (by decide)),
      reads_word _ 8 _ (front 8 (by decide)) (front 9 (by decide)) (front 10 (by decide)) (front 11 (by decide)),
      reads_half _ 14 _ (front 14 (by decide)) (front 15 (by decide)),
      reads_half _ 18 _ (front 18 (by decide)) (front 19 (by decide))⟩

end Sys2Proof.Machine
end

section
/-! PROOFS. The wire header in the Buffer (30_encoding.md R52 to R54, R58): which bytes a PACK that answered None leaves
at the front, which bytes an UNPACK reads there, and the control flags in byte 13. -/

namespace Sys2Proof.Machine

/-! ### The front of the Buffer after PACK -/

/-- After a PACK that answered None the front twenty bytes are the header of 30_encoding.md R53. -/
theorem exec_pack_succeeded_front (s t : State) (hexec : exec .pack s = .next t)
    (hanswer : t.answer = some ⟨.none, .absent⟩) :
    ∀ k, k < 20 → t.buf.read k = (wireHeader s.seg)[k]? := by
  intro k hk
  obtain ⟨rs, d, hafter⟩ := afterReserve_cases s
  rw [execPack_succeeded s t hexec hanswer, packReserved_eq, hafter]
  exact read_reserve_front _ _ _ hk

/-! ### The front of the Buffer before UNPACK -/

/-- A half can be read only where both of its bytes are listed. -/
theorem reads_of_read16 (m : Memory) (off : Nat) (v : Half) (h : m.read16 off = some v) :
    (m.read off).isSome ∧ (m.read (off + 1)).isSome := by
  unfold Memory.read16 at h
  split at h
  · rename_i hhi hlo
    simp only [hhi, hlo, Option.isSome_some, and_self]
  · cases h

/-- A word can be read only where both of its halves can. -/
theorem read16s_of_read32 (m : Memory) (off : Nat) (v : Word) (h : m.read32 off = some v) :
    (∃ hi, m.read16 off = some hi) ∧ ∃ lo, m.read16 (off + 2) = some lo := by
  unfold Memory.read32 at h
  split at h
  · rename_i hi lo hhi hlo
    exact ⟨⟨hi, hhi⟩, lo, hlo⟩
  · cases h

/-- A word can be read only where its four bytes are listed. -/
theorem reads_of_read32 (m : Memory) (off : Nat) (v : Word) (h : m.read32 off = some v) :
    ((m.read off).isSome ∧ (m.read (off + 1)).isSome) ∧ (m.read (off + 2)).isSome ∧ (m.read (off + 3)).isSome := by
  obtain ⟨⟨hi, hhi⟩, lo, hlo⟩ := read16s_of_read32 m off v h
  exact ⟨reads_of_read16 m off hi hhi, reads_of_read16 m (off + 2) lo hlo⟩

/-- The ten field reads succeed only where the front twenty offsets are listed. -/
theorem reads_of_readHeader (m : Memory) (g : Segment) (h : readHeader m = some g) :
    ∀ k, k < 20 → (m.read k).isSome := by
  simp only [readHeader, Option.bind_eq_bind, Option.bind_eq_some_iff] at h
  obtain ⟨_, h12, _, h13, _, hsource, _, hdestination, _, hsequence, _, hacknowledgment, _, hwindow, _, hchecksum,
    _, hurgent, -⟩ := h
  have h0 := reads_of_read16 m 0 _ hsource
  have h2 := reads_of_read16 m 2 _ hdestination
  have h4 := reads_of_read32 m 4 _ hsequence
  have h8 := reads_of_read32 m 8 _ hacknowledgment
  have h14 := reads_of_read16 m 14 _ hwindow
  have h16 := reads_of_read16 m 16 _ hchecksum
  have h18 := reads_of_read16 m 18 _ hurgent
  intro k hk
  interval_cases k <;> simp_all only [Option.isSome_some]

/-- What the ten field reads answer is the fields of 30_encoding.md R54, over the bytes at the front. -/
theorem readHeader_eq_some (m : Memory) (g : Segment) (h : readHeader m = some g) :
    ∃ b : Nat → Byte, (∀ k, k < 20 → m.read k = some (b k)) ∧ g = wireFields b := by
  have hread : ∀ k, k < 20 → m.read k = some ((m.read k).getD 0) := fun k hk => by
    obtain ⟨b, hb⟩ := Option.isSome_iff_exists.1 (reads_of_readHeader m g h k hk)
    rw [hb, Option.getD_some]
  refine ⟨fun k => (m.read k).getD 0, hread, ?_⟩
  rw [readHeader_of_reads m _ hread] at h
  exact (Option.some.inj h).symm

/-- After an UNPACK that answered None, SEG is the fields of the front twenty bytes. -/
theorem exec_unpack_succeeded (s t : State) (hexec : exec .unpack s = .next t)
    (hanswer : t.answer = some ⟨.none, .absent⟩) :
    ∃ b : Nat → Byte, (∀ k, k < 20 → s.buf.read k = some (b k)) ∧ t.seg = wireFields b := by
  rcases execUnpack_next s t hexec with ⟨-, rfl⟩ | ⟨-, g, hg, rfl⟩
  · cases hanswer
  · exact readHeader_eq_some s.buf g hg

/-! ### The control flags in byte 13 (30_encoding.md R52) -/

/-- Byte 13 carries the lower eight control bits, each at its own place. -/
theorem getLsbD_byte13 (ctl : BitVec 9) (j : Nat) (h : j < 8) : (byte13 ctl).getLsbD j = ctl.getLsbD j := by
  simp [byte13, h]

/-- Byte 13 when one of its flags is set and no other. -/
theorem toNat_byte13_flagMask (f : ControlFlag) (h : flagBit f < 8) : (byte13 (flagMask f)).toNat = 2 ^ flagBit f := by
  cases f <;> revert h <;> decide

/-- Byte 13 after a PACK that answered None. -/
theorem exec_pack_succeeded_byte13 (s t : State) (hexec : exec .pack s = .next t)
    (hanswer : t.answer = some ⟨.none, .absent⟩) : t.buf.read 13 = some (byte13 s.seg.control_bits) :=
  exec_pack_succeeded_front s t hexec hanswer 13 (by decide)

/-- The byte 13 that an UNPACK read is the one its control bits would be written to. -/
theorem exec_unpack_succeeded_byte13 (s t : State) (b : Byte) (hexec : exec .unpack s = .next t)
    (hanswer : t.answer = some ⟨.none, .absent⟩) (hread : s.buf.read 13 = some b) :
    byte13 t.seg.control_bits = b := by
  obtain ⟨bytes, hbytes, hseg⟩ := exec_unpack_succeeded s t hexec hanswer
  have hb : bytes 13 = b := Option.some.inj ((hbytes 13 (by decide)).symm.trans hread)
  rw [hseg, ← hb]
  exact (split_control (bytes 12) (bytes 13)).2

/-- Settles O37: after PACK and after UNPACK alike, byte 13 on the wire is `byte13` of the control bits, and each of the
eight flags has the same bit in both. -/
theorem controlFlagsOnTheWire : Obligations.ControlFlagsOnTheWire := by
  intro fj hmem
  obtain ⟨hbit, hlt⟩ : fj.2 = flagBit fj.1 ∧ flagBit fj.1 < 8 := by
    revert fj
    decide
  rw [hbit]
  constructor
  · intro s t hexec hanswer
    refine ⟨_, exec_pack_succeeded_byte13 s t hexec hanswer, getLsbD_byte13 _ _ hlt, fun honly => ?_⟩
    rw [honly, toNat_byte13_flagMask _ hlt]
  · intro s t b hexec hanswer hread
    rw [← exec_unpack_succeeded_byte13 s t b hexec hanswer hread, getLsbD_byte13 _ _ hlt]
    rfl

/-! ### UNPACK and what stands behind the header (30_encoding.md R58) -/

/-- An offset inside `front` holds a byte of `front`, whatever stands behind. -/
theorem read_ofBytes_append (front tail : List Byte) (k : Nat) (h : k < front.length) :
    (Memory.ofBytes (front ++ tail)).read k = some (byteAt front k) := by
  rw [read_ofBytes, List.getElem?_append_left h, List.getElem?_eq_getElem h]
  simp [byteAt, h]

/-- UNPACK on any twenty bytes with anything behind them: the fields of those twenty. -/
theorem exec_unpack_of_front (s : State) (front tail : List Byte) (h : front.length = 20) :
    exec .unpack { s with buf := Memory.ofBytes (front ++ tail) } = .next
      ({ s with buf := Memory.ofBytes (front ++ tail), seg := wireFields (byteAt front) }.answering .none .absent) :=
  exec_unpack_of_reads _ (byteAt front) (by simp [h]) fun k hk => read_ofBytes_append front tail k (by omega)

/-- Settles O43: the next state is a function of the front twenty bytes, and the bytes behind stay in the Buffer only. -/
theorem unpackReadsOnlyTheFrontTwenty : Obligations.UnpackReadsOnlyTheFrontTwenty := by
  intro s front tail₁ tail₂ h
  exact ⟨_, exec_unpack_of_front s front tail₁ h, rfl, rfl, rfl, rfl, exec_unpack_of_front s front tail₂ h⟩

end Sys2Proof.Machine
end

section
/-! PROOFS. The Port Parser and the commands that parse (40_port_parser.md R70 to R75): what PARSE and the setters do on
each result of the parser, and what the scanned bytes make that result. -/

namespace Sys2Proof.Machine

/-! ### The commands that parse, one equation per result of the parser (R70, R77) -/

theorem exec_parse_of_ok (t : PortText) (s : State) (v : Half) (ht : textPresent t = true) (h : parsePort t = .ok v) :
    exec (.parse t) s = .next (s.answering .none (.port v)) := by
  simp only [exec, execParse, ht, if_true, h]

theorem exec_parse_of_badField (t : PortText) (s : State) (ht : textPresent t = true) (h : parsePort t = .badField) :
    exec (.parse t) s = .next ((s.spend 1).answering .badField (.port (Config.freeBits 16 s.draws))) := by
  simp only [exec, execParse, ht, if_true, h]

theorem setPort_of_ok (put : Segment → Half → Segment) (t : PortText) (s : State) (v : Half)
    (ht : textPresent t = true) (h : parsePort t = .ok v) :
    setPort put t s = .next ({ s with seg := put s.seg v }.answering .none .absent) := by
  simp only [setPort, ht, if_true, h]

theorem setPort_of_badField (put : Segment → Half → Segment) (t : PortText) (s : State)
    (ht : textPresent t = true) (h : parsePort t = .badField) :
    setPort put t s =
      .next (({ s with seg := put s.seg (Config.freeBits 16 s.draws) }.spend 1).answering .badField .absent) := by
  simp only [setPort, ht, if_true, h]

theorem exec_setSrc (t : PortText) (s : State) :
    exec (.setSrc t) s = setPort (fun g v => { g with source := v }) t s := rfl

theorem exec_setDst (t : PortText) (s : State) :
    exec (.setDst t) s = setPort (fun g v => { g with destination := v }) t s := rfl

/-! ### A non-digit among the scanned bytes (R73) -/

theorem not_isDigit_of_outside (c : Byte) (h : c.toNat < 0x30 ∨ 0x39 < c.toNat) : ¬ isDigit c = true := by
  rw [isDigit_iff]
  omega

/-- The bytes below index `min(LEN, 5)` are scanned. -/
theorem mem_scannedText (t : PortText) (i : Nat) (c : Byte) (hi : i < min t.len 5) (hc : t.text[i]? = some c) :
    c ∈ scannedText t := by
  have : (scannedText t)[i]? = some c := (List.getElem?_take_of_lt hi).trans hc
  exact List.mem_of_getElem? this

/-- Settles O13: the byte is one of the scanned ones, the loop stops at it, and the three commands pass the result on. -/
theorem nonDigitAtScannedPositionFails : Obligations.NonDigitAtScannedPositionFails := by
  intro t i c hlen hi hc houtside
  have present : textPresent t = true := (textPresent_iff t).2 hlen
  have bad : parsePort t = .badField :=
    parseScanned_nondigit _ fun digits => not_isDigit_of_outside c houtside (digits c (mem_scannedText t i c hi hc))
  exact ⟨bad, fun s => ⟨_, _, exec_parse_of_badField t s present bad, rfl⟩,
    fun s => ⟨_, (exec_setSrc t s).trans (setPort_of_badField _ t s present bad), rfl⟩,
    fun s => ⟨_, (exec_setDst t s).trans (setPort_of_badField _ t s present bad), rfl⟩⟩

/-! ### Truncation to five characters (R72) -/

/-- Above five, LEN makes no difference to what is scanned. -/
theorem scannedText_of_long (bs : List Byte) (n : Nat) (h : 5 ≤ n) : scannedText ⟨bs, n⟩ = bs.take 5 := by
  simp only [scannedText, scanCount, Nat.min_eq_right h]

/-- What stands behind the first five bytes is not scanned. -/
theorem scannedText_append (bs tail : List Byte) (n : Nat) (h : 5 ≤ bs.length) :
    scannedText ⟨bs ++ tail, n⟩ = scannedText ⟨bs, n⟩ :=
  List.take_append_of_le_length ((Nat.min_le_right n 5).trans h)

theorem parsePort_of_long (bs : List Byte) (n : Nat) (h : 5 ≤ n) : parsePort ⟨bs, n⟩ = parsePort ⟨bs, 5⟩ := by
  rw [parsePort, parsePort, scannedText_of_long bs n h, scannedText_of_long bs 5 le_rfl]

/-- PARSE sees of its text only what the parser makes of it. -/
theorem exec_parse_of_same_result (t t' : PortText) (s : State) (ht : textPresent t = true)
    (ht' : textPresent t' = true) (h : parsePort t' = parsePort t) :
    ∃ u, exec (.parse t) s = .next u ∧ exec (.parse t') s = .next u := by
  rcases parsePort_cases t with ⟨v, hv⟩ | hbad
  · exact ⟨_, exec_parse_of_ok t s v ht hv, exec_parse_of_ok t' s v ht' (h.trans hv)⟩
  · exact ⟨_, exec_parse_of_badField t s ht hbad, exec_parse_of_badField t' s ht' (h.trans hbad)⟩

/-- A setter sees of its text only what the parser makes of it. -/
theorem setPort_of_same_result (put : Segment → Half → Segment) (t t' : PortText) (s : State)
    (ht : textPresent t = true) (ht' : textPresent t' = true) (h : parsePort t' = parsePort t) :
    ∃ u, setPort put t s = .next u ∧ setPort put t' s = .next u := by
  rcases parsePort_cases t with ⟨v, hv⟩ | hbad
  · exact ⟨_, setPort_of_ok put t s v ht hv, setPort_of_ok put t' s v ht' (h.trans hv)⟩
  · exact ⟨_, setPort_of_badField put t s ht hbad, setPort_of_badField put t' s ht' (h.trans hbad)⟩

/-- On over-long text each of the three commands does what it does for LEN = 5. After BadField the two next states agree
only because the model's free values are a function of the draw counter (log 7); O14 asks for the status alone there. -/
theorem exec_long_text (bs : List Byte) (n : Nat) (s : State) (hbs : 5 ≤ bs.length) (hn : 5 ≤ n) :
    ∀ command ∈ ([.parse, .setSrc, .setDst] : List (PortText → Instr)),
      ∃ u, exec (command ⟨bs, n⟩) s = .next u ∧ exec (command ⟨bs, 5⟩) s = .next u := by
  have present : ∀ k, textPresent ⟨bs, k⟩ = true := fun k =>
    (textPresent_iff _).2 ((Nat.min_le_right k 5).trans hbs)
  have same := (parsePort_of_long bs n hn).symm
  simp only [List.forall_mem_cons, exec_setSrc, exec_setDst]
  exact ⟨exec_parse_of_same_result _ _ s (present n) (present 5) same,
    setPort_of_same_result _ _ _ s (present n) (present 5) same,
    setPort_of_same_result _ _ _ s (present n) (present 5) same, List.forall_mem_nil _⟩

/-- Settles O14: the two texts have the same scanned bytes, and the commands see nothing else of a text. -/
theorem parserTruncatesToFiveCharacters : Obligations.ParserTruncatesToFiveCharacters := by
  refine ⟨fun bs n hn => parsePort_of_long bs n hn.le, ?tails, ?commands, by decide⟩
  case tails =>
    intro bs tail₁ tail₂ n hbs
    rw [parsePort, parsePort, scannedText_append bs tail₁ n hbs.ge, scannedText_append bs tail₂ n hbs.ge]
  case commands =>
    intro bs n s hbs hn command hmem
    obtain ⟨u, hlong, hfive⟩ := exec_long_text bs n s hbs hn.le command hmem
    exact ⟨u, u, hlong, hfive, rfl, fun _ => rfl⟩

/-! ### The range check on the full accumulator (R75) -/

theorem parsePort_of_accumulate (t : PortText) (n : Nat) (h : accumulate 0 (t.text.take (min t.len 5)) = some n) :
    parsePort t = if 65535 < n then .badField else .ok (BitVec.ofNat 16 n) :=
  parseScanned_of_accumulate (scannedText t) n h

/-- A text of at most five bytes is scanned to its end. -/
theorem parsePort_of_accumulate_all (bs : List Byte) (n : Nat) (hbs : bs.length ≤ 5) (h : accumulate 0 bs = some n) :
    parsePort ⟨bs, bs.length⟩ = if 65535 < n then .badField else .ok (BitVec.ofNat 16 n) :=
  parsePort_of_accumulate ⟨bs, bs.length⟩ n (by rw [Nat.min_eq_left hbs, List.take_length, h])

/-- The byte that stands for the decimal digit `d`. -/
def digitByte (d : Nat) : Byte :=
  BitVec.ofNat 8 (0x30 + d)

theorem toNat_digitByte (d : Nat) (h : d ≤ 9) : (digitByte d).toNat = 0x30 + d := by
  rw [digitByte, BitVec.toNat_ofNat]
  omega

/-- The byte of a decimal digit is a digit, and its value is that digit. -/
theorem accumulate_digitByte (acc d : Nat) (cs : List Byte) (h : d ≤ 9) :
    accumulate acc (digitByte d :: cs) = accumulate (acc * 10 + d) cs := by
  have hd := toNat_digitByte d h
  rw [accumulate_digit _ _ _ ((isDigit_iff _).2 (by omega)), digitValue, hd, Nat.add_sub_cancel_left]

/-- The five decimal digits of a number below 100000 accumulate to that number. -/
theorem accumulate_five_digits (n : Nat) (h : n ≤ 99999) :
    accumulate 0 ([n / 10000, n / 1000 % 10, n / 100 % 10, n / 10 % 10, n % 10].map digitByte) = some n := by
  simp only [List.map_cons, List.map_nil]
  rw [accumulate_digitByte _ _ _ (by omega), accumulate_digitByte _ _ _ (by omega),
    accumulate_digitByte _ _ _ (by omega), accumulate_digitByte _ _ _ (by omega),
    accumulate_digitByte _ _ _ (by omega), accumulate_nil]
  congr 1
  omega

/-- At most four digits accumulate to a value that passes the range check. -/
theorem parsePort_of_short_digits (bs : List Byte) (hbs : bs.length ≤ 4) (hdigits : ∀ c ∈ bs, isDigit c = true) :
    ∃ v, parsePort ⟨bs, bs.length⟩ = .ok v := by
  obtain ⟨n, hn⟩ := Option.isSome_iff_exists.1 ((accumulate_isSome_iff bs 0).2 hdigits)
  have inRange : ¬ 65535 < n := by
    have hlt : n < 10 ^ bs.length := accumulate_lt bs n hn
    have hle : 10 ^ bs.length ≤ 10 ^ 4 := Nat.pow_le_pow_right (by decide) hbs
    omega
  exact ⟨BitVec.ofNat 16 n, by rw [parsePort_of_accumulate_all bs n (by omega) hn, if_neg inRange]⟩

/-- Settles O15: the check compares the accumulated number itself; five digits accumulate to the number they write, four
to less than 10000. -/
theorem parserRangeCheckOnFullValue : Obligations.ParserRangeCheckOnFullValue := by
  refine ⟨fun t n _ h => parsePort_of_accumulate t n h, ?fiveDigits, ?shorter, by decide⟩
  case fiveDigits =>
    intro n h
    exact parsePort_of_accumulate_all _ n le_rfl (accumulate_five_digits n h)
  case shorter =>
    intro bs _ hbs hdigits
    exact parsePort_of_short_digits bs hbs fun c hc => (isDigit_iff c).2 (hdigits c hc)

end Sys2Proof.Machine
end

section
/-! PROOFS. The segment model (41_segment_model.md): what INIT and RDF do on every state, and the defaults as the RDFs
show them. -/

namespace Sys2Proof.Machine

/-! ### INIT (R80) -/

/-- INIT answers None from every state, and SEG is what it writes. -/
theorem exec_init (s : State) : exec .init s = .next ({ s with seg := initSegment }.answering .none .absent) := rfl

/-- INIT reads nothing of SEG. -/
theorem exec_init_any_segment (s : State) (g : Segment) : exec .init { s with seg := g } = exec .init s := by
  rw [exec_init, exec_init]

/-- INIT from a state that an INIT has answered changes nothing: SEG and the outputs are already what it writes. -/
theorem exec_init_idempotent (s t : State) (h : exec .init s = .next t) : exec .init t = .next t := by
  rw [exec_init] at h
  cases h
  rw [exec_init]
  rfl

/-- Settles O20: INIT writes the documented defaults and the outputs, none of it computed from SEG. -/
theorem initLoadsDefaults : Obligations.InitLoadsDefaults :=
  ⟨exec_init, exec_init_any_segment, exec_init_idempotent⟩

/-! ### The defaults read back (R84, R86) -/

/-- RDF answers the selected field from every state and writes nothing else. -/
theorem exec_rdf (f : Field) (s : State) :
    exec (.rdf f) s = .next (s.answering .none (.field (readField s.seg f))) := rfl

/-- The value that RDF answers for each field after INIT, in selector order (R86). -/
def defaultReadings : List (Field × Word) :=
  [(.source, 0), (.destination, 0), (.sequence, 0), (.acknowledgment, 0), (.data_offset, 5),
   (.control_bits, 0), (.window_size, 1), (.checksum, 0), (.urgent_pointer, 0)]

theorem readField_initSegment : ∀ fv ∈ defaultReadings, readField initSegment fv.1 = fv.2 := by
  decide

/-- Where SEG holds the defaults, RDF answers them. -/
theorem exec_rdf_of_defaults (t : State) (hseg : t.seg = initSegment) (fv : Field × Word) (hfv : fv ∈ defaultReadings) :
    exec (.rdf fv.1) t = .next (t.answering .none (.field fv.2)) := by
  rw [exec_rdf, hseg, readField_initSegment fv hfv]

/-- Settles O21: INIT leaves SEG at the defaults, and each RDF answers its field of them. -/
theorem defaultsReadBack : Obligations.DefaultsReadBack := by
  intro s
  refine ⟨_, exec_init s, rfl, fun fv hfv => ?_⟩
  exact ⟨_, exec_rdf_of_defaults _ (answering_seg _ _ _) fv hfv, answering_answer _ _ _⟩

end Sys2Proof.Machine
end

section
/-! PROOFS. The codec, PACK (42_codec_pack.md R91): the fixed `data_offset` in SEG, as RDF shows it, and the zero checksum
bytes in the Buffer. -/

namespace Sys2Proof.Machine

/-! ### What a granted PACK answers and leaves in SEG -/

@[simp] theorem packReserved_answer (s : State) : (packReserved s).answer = some ⟨.none, .absent⟩ := by
  rw [packReserved_eq]

@[simp] theorem packReserved_seg (s : State) : (packReserved s).seg = { s.seg with data_offset := 5 } := by
  rw [packReserved_eq]

/-- PACK where the Buffer's next listed answer grants the reservation. -/
theorem exec_pack_of_granted (s : State) (rest : List ReserveAnswer) (h : s.reserves = .ok :: rest) :
    exec .pack s = .next (packReserved { s with reserves := rest }) := by
  simp only [exec, execPack, reserveAnswer_listed s _ _ _ h, afterReserve_listed s _ _ h]

/-- The `data_offset` that PACK found plays no part in the one it leaves. -/
theorem exec_pack_succeeded_data_offset (s t : State) (hexec : exec .pack s = .next t)
    (hanswer : t.answer = some ⟨.none, .absent⟩) : t.seg.data_offset = 5 := by
  rw [execPack_succeeded s t hexec hanswer, packReserved_seg]

/-! ### RDF of `data_offset`, and the checksum on the wire -/

/-- RDF answers the four bits of `data_offset` as a number in 32 bits. -/
theorem exec_rdf_of_data_offset_five (t : State) (h : t.seg.data_offset = 5) :
    exec (.rdf .data_offset) t = .next (t.answering .none (.field 5)) := by
  have hread : readField t.seg .data_offset = 5 := by
    rw [readField, h]
    rfl
  rw [exec_rdf, hread]

/-- PACK writes zero for the checksum, whatever `SEG.checksum` holds (R90). -/
theorem exec_pack_succeeded_checksum (s t : State) (hexec : exec .pack s = .next t)
    (hanswer : t.answer = some ⟨.none, .absent⟩) : t.buf.read 16 = some 0 ∧ t.buf.read 17 = some 0 := by
  have front := exec_pack_succeeded_front s t hexec hanswer
  exact ⟨front 16 (by decide), front 17 (by decide)⟩

/-- Settles O35: INIT and a granted PACK write 5 into `data_offset`, a PACK that answered None was granted its
reservation, and bytes 16 and 17 of the header in front of the Buffer are zero. -/
theorem packForcesDataOffsetFive : Obligations.PackForcesDataOffsetFive := by
  refine ⟨?init, ?granted, ?succeeded⟩
  case init =>
    intro s
    exact ⟨_, exec_init s, rfl⟩
  case granted =>
    intro s rest h
    exact ⟨_, exec_pack_of_granted s rest h, packReserved_answer _⟩
  case succeeded =>
    intro s t hexec hanswer
    have five := exec_pack_succeeded_data_offset s t hexec hanswer
    exact ⟨five, ⟨_, exec_rdf_of_data_offset_five t five, answering_answer _ _ _⟩,
      exec_pack_succeeded_checksum s t hexec hanswer⟩

end Sys2Proof.Machine
end

section
/-! PROOFS. The codec, UNPACK (43_codec_unpack.md R95 to R98): what UNPACK answers on enough bytes and on too few, what it
makes of the header that a PACK has written, and a PACK after it. -/

namespace Sys2Proof.Machine

/-! ### One equation per answer of UNPACK (R95, R97) -/

/-- UNPACK on enough bytes: SEG becomes what the ten field reads answer. -/
theorem exec_unpack_of_readHeader (s : State) (g : Segment) (hsize : 20 ≤ s.buf.size)
    (hread : readHeader s.buf = some g) :
    exec .unpack s = .next ({ s with seg := g }.answering .none .absent) := by
  have long : ¬ s.buf.size < Config.hdrLen := Nat.not_lt.mpr hsize
  simp only [exec, execUnpack, long, if_false, hread]

/-- UNPACK on a canonical Buffer of enough bytes: SEG becomes the fields of 30_encoding.md R54. -/
theorem exec_unpack_of_inv (s : State) (hinv : s.Inv) (hsize : 20 ≤ s.buf.size) :
    exec .unpack s = .next ({ s with seg := wireFields (byteAt s.buf.bytes) }.answering .none .absent) :=
  exec_unpack_of_readHeader s _ hsize (readHeader_of_wf s.buf hinv hsize)

/-- UNPACK on fewer bytes than a header: SEG is drawn. -/
theorem exec_unpack_of_short (s : State) (h : s.buf.size < 20) :
    exec .unpack s = .next (({ s with seg := drawSegment s.draws }.spend 9).answering .missingData .absent) :=
  if_pos h

/-- The failing half of R95 and R97: MissingData with some SEG, and nothing else changed. -/
theorem exec_unpack_short_frame (s : State) (h : s.buf.size < 20) : ∃ g d, exec .unpack s =
    .next { s with seg := g, answer := some ⟨.missingData, .absent⟩, call := none, draws := d } :=
  ⟨drawSegment s.draws, s.draws + 9, exec_unpack_of_short s h⟩

/-- UNPACK has no write path to the Buffer. -/
theorem exec_unpack_buf (s t : State) (hexec : exec .unpack s = .next t) : t.buf = s.buf := by
  rcases execUnpack_next s t hexec with ⟨-, rfl⟩ | ⟨-, g, -, rfl⟩
  · rw [answering_buf, spend_buf]
  · rw [answering_buf]

/-- Settles O39: the ten field reads of a canonical Buffer are the assembly of R54, and a short Buffer is not read. -/
theorem unpackLoadsWireFields : Obligations.UnpackLoadsWireFields :=
  ⟨exec_unpack_of_inv, exec_unpack_short_frame⟩

/-- Settles O41: the short case draws SEG alone, and neither case of UNPACK writes the Buffer. -/
theorem failingUnpackLeavesBuffer : Obligations.FailingUnpackLeavesBuffer :=
  ⟨exec_unpack_short_frame, exec_unpack_buf⟩

/-! ### PACK after UNPACK (R96) -/

/-- A listed grant is enough for PACK to answer None, whatever SEG and the Buffer hold. -/
theorem exec_pack_granted_answer (s : State) (rest : List ReserveAnswer) (h : s.reserves = .ok :: rest) :
    ∃ t, exec .pack s = .next t ∧ t.answer = some ⟨.none, .absent⟩ :=
  ⟨_, exec_pack_of_granted s rest h, packReserved_answer _⟩

/-- The high nibble of byte 12 after a PACK that answered None, whatever `data_offset` was. -/
theorem exec_pack_succeeded_nibble (s t : State) (hexec : exec .pack s = .next t)
    (hanswer : t.answer = some ⟨.none, .absent⟩) : ∃ b, t.buf.read 12 = some b ∧ b.extractLsb' 4 4 = 5 :=
  ⟨_, exec_pack_succeeded_front s t hexec hanswer 12 (by decide), dataOffsetOf_encoded s.seg.control_bits⟩

/-- Settles O42: UNPACK of at least twenty bytes loads their fields unchecked and takes no answer of the Buffer, so the
PACK after it is granted its reservation and writes the fixed values. -/
theorem unpackValidatesOnlyLength : Obligations.UnpackValidatesOnlyLength := by
  intro s bs rest hlen hbuf hreserves
  have hinv : s.Inv := by rw [State.Inv, hbuf, wf_ofBytes]
  have hsize : 20 ≤ s.buf.size := by rwa [hbuf, size_ofBytes]
  have hunpack := exec_unpack_of_inv s hinv hsize
  have hbytes : s.buf.bytes = bs := by rw [hbuf, bytes_ofBytes]
  rw [hbytes] at hunpack
  obtain ⟨u, hpack, hanswer⟩ :=
    exec_pack_granted_answer ({ s with seg := wireFields (byteAt bs) }.answering .none .absent) rest hreserves
  exact ⟨_, u, hunpack, answering_answer _ _ _, rfl, rfl, hpack, hanswer,
    exec_pack_succeeded_nibble _ u hpack hanswer, exec_pack_succeeded_checksum _ u hpack hanswer⟩

/-! ### UNPACK after PACK (R98) -/

/-- `Fields(Header(S))`: the slices that the header is made of, joined again. -/
theorem wireFields_wireHeader (g : Segment) :
    wireFields (byteAt (wireHeader g)) = { g with data_offset := 5, checksum := 0 } :=
  (Segment.mk.injEq ..).mpr ⟨join_half g.source, join_half g.destination, join_word g.sequence,
    join_word g.acknowledgment, dataOffsetOf_encoded g.control_bits, join_control g.control_bits,
    join_half g.window_size, (by decide : (0#8 ++ 0#8 : Half) = 0), join_half g.urgent_pointer⟩

@[simp] theorem packReserved_buf (s : State) : (packReserved s).buf = s.buf.reserve (wireHeader s.seg) := by
  rw [packReserved_eq]

/-- UNPACK reads back the header that a granted PACK has put in front of any Buffer. -/
theorem exec_unpack_packReserved (s : State) : exec .unpack (packReserved s) =
    .next ({ packReserved s with seg := { s.seg with data_offset := 5, checksum := 0 } }.answering .none .absent) := by
  have hsize : 20 ≤ (packReserved s).buf.size := by
    rw [packReserved_buf, size_reserve, length_wireHeader]
    exact Nat.le_add_left 20 _
  have hread : readHeader (packReserved s).buf = some { s.seg with data_offset := 5, checksum := 0 } := by
    rw [packReserved_buf, readHeader_reserve, wireFields_wireHeader]
  exact exec_unpack_of_readHeader _ _ hsize hread

/-- Settles O44: PACK is granted its reservation, UNPACK reads its header back, and the control bits, so every flag of
them, are among the fields that come back as they were. -/
theorem packThenUnpackRoundTrip : Obligations.PackThenUnpackRoundTrip := by
  intro s rest hreserves
  exact ⟨_, _, exec_pack_of_granted s rest hreserves, packReserved_answer _, exec_unpack_packReserved _,
    answering_answer _ _ _, rfl, fun _ => rfl⟩

end Sys2Proof.Machine
end

section
/-! PROOFS. The decoder and the encoder (30_encoding.md R60 to R62, R66): a presentation decodes to an instruction
exactly when it has that instruction's word, its operands on the ports, and the instruction is well formed. -/

namespace Sys2Proof

/-! ### What a presentation that decodes looks like -/

/-- The operand ports that the row of `i` names hold the operands of `i` (30_encoding.md R60). -/
def PortsHold (p : Presented) : Instr → Prop
  | .setSrc t | .setDst t | .parse t => p.text = t
  | .mutate l => p.lctx = l
  | .wrf _ data => p.data = data
  | .init | .pack | .unpack | .rdf _ => True

/-- A command word is put together from exactly its two nibbles. -/
theorem eq_commandWord_iff (cw : Byte) (sel op : BitVec 4) :
    cw = commandWord sel op ↔ selOf cw = sel ∧ (opOf cw).toNat = op.toNat := by
  constructor
  · rintro rfl
    exact ⟨selOf_commandWord sel op, congrArg BitVec.toNat (opOf_commandWord sel op)⟩
  · rintro ⟨rfl, hop⟩
    rw [← BitVec.eq_of_toNat_eq hop, commandWord_selOf_opOf]

/-- What a command without operand ports or selector looks like. -/
theorem presented_of_decodePlain (cw : Byte) (op : BitVec 4) (i j : Instr) (hop : (opOf cw).toNat = op.toNat)
    (h : decodePlain (selOf cw) j = .ok i) : cw = commandWord 0 op ∧ j = i := by
  obtain ⟨hsel, hj⟩ := (decodePlain_ok _ _ _).1 h
  exact ⟨(eq_commandWord_iff _ _ _).2 ⟨hsel, hop⟩, hj⟩

/-- What a command with a text looks like. -/
theorem presented_of_decodeText (cw : Byte) (t : PortText) (op : BitVec 4) (i j : Instr)
    (hop : (opOf cw).toNat = op.toNat) (h : decodeText (selOf cw) t j = .ok i) :
    cw = commandWord 0 op ∧ Machine.textPresent t = true ∧ j = i := by
  obtain ⟨hsel, htext, hj⟩ := (decodeText_ok _ _ _ _).1 h
  exact ⟨(eq_commandWord_iff _ _ _).2 ⟨hsel, hop⟩, htext, hj⟩

/-- The decoder accepts only presentations of well-formed instructions. -/
theorem presented_of_decode (p : Presented) (i : Instr) (h : decode p = .ok i) :
    p.cw = (encode i).cw ∧ PortsHold p i ∧ i.wf = true := by
  unfold decode at h
  split at h
  case h_1 hop =>
    obtain ⟨hcw, rfl⟩ := presented_of_decodePlain _ 0 _ _ hop h
    exact ⟨hcw, trivial, rfl⟩
  case h_2 hop =>
    obtain ⟨hcw, htext, rfl⟩ := presented_of_decodeText _ _ 1 _ _ hop h
    exact ⟨hcw, rfl, htext⟩
  case h_3 hop =>
    obtain ⟨hcw, htext, rfl⟩ := presented_of_decodeText _ _ 2 _ _ hop h
    exact ⟨hcw, rfl, htext⟩
  case h_4 hop =>
    obtain ⟨hcw, rfl⟩ := presented_of_decodePlain _ 3 _ _ hop h
    exact ⟨hcw, rfl, rfl⟩
  case h_5 hop =>
    obtain ⟨hcw, rfl⟩ := presented_of_decodePlain _ 4 _ _ hop h
    exact ⟨hcw, trivial, rfl⟩
  case h_6 hop =>
    obtain ⟨hcw, rfl⟩ := presented_of_decodePlain _ 5 _ _ hop h
    exact ⟨hcw, trivial, rfl⟩
  case h_7 hop =>
    obtain ⟨hcw, htext, rfl⟩ := presented_of_decodeText _ _ 6 _ _ hop h
    exact ⟨hcw, rfl, htext⟩
  case h_8 hop =>
    obtain ⟨f, hsel, rfl⟩ := (decodeRdf_ok _ _).1 h
    exact ⟨(eq_commandWord_iff _ _ 7).2 ⟨hsel, hop⟩, trivial, rfl⟩
  case h_9 hop =>
    obtain ⟨f, hsel, hfits, rfl⟩ := (decodeWrf_ok _ _ _).1 h
    exact ⟨(eq_commandWord_iff _ _ 8).2 ⟨hsel, hop⟩, rfl, hfits⟩
  case h_10 => cases h

/-- The decoder accepts every presentation of a well-formed instruction. -/
theorem decode_of_presented (p : Presented) (i : Instr) (hcw : p.cw = (encode i).cw) (hports : PortsHold p i)
    (hwf : i.wf = true) : decode p = .ok i := by
  have nibbles : ∀ sel op : BitVec 4, (encode i).cw = commandWord sel op →
      selOf p.cw = sel ∧ (opOf p.cw).toNat = op.toNat := fun sel op hword =>
    (eq_commandWord_iff _ _ _).1 (hcw.trans hword)
  cases i with
  | init | pack | unpack =>
    obtain ⟨hsel, hop⟩ := nibbles 0 _ rfl
    simpa [decode, hop] using (decodePlain_ok _ _ _).2 ⟨hsel, rfl⟩
  | mutate l =>
    obtain ⟨hsel, hop⟩ := nibbles 0 _ rfl
    simpa [decode, hop] using (decodePlain_ok _ _ _).2 ⟨hsel, congrArg Instr.mutate hports⟩
  | setSrc t | setDst t | parse t =>
    obtain ⟨hsel, hop⟩ := nibbles 0 _ rfl
    obtain rfl : p.text = t := hports
    simpa [decode, hop] using (decodeText_ok _ _ _ _).2 ⟨hsel, hwf, rfl⟩
  | rdf f =>
    obtain ⟨hsel, hop⟩ := nibbles _ _ rfl
    simpa [decode, hop] using (decodeRdf_ok _ _).2 ⟨f, hsel, rfl⟩
  | wrf f data =>
    obtain ⟨hsel, hop⟩ := nibbles _ _ rfl
    obtain rfl : p.data = data := hports
    simpa [decode, hop] using (decodeWrf_ok _ _ _).2 ⟨f, hsel, hwf, rfl⟩

theorem decode_ok_iff (p : Presented) (i : Instr) :
    decode p = .ok i ↔ p.cw = (encode i).cw ∧ PortsHold p i ∧ i.wf = true :=
  ⟨presented_of_decode p i, fun ⟨hcw, hports, hwf⟩ => decode_of_presented p i hcw hports hwf⟩

/-- The encoder puts the operands on the ports. -/
theorem portsHold_encode (i : Instr) : PortsHold (encode i) i := by
  cases i with
  | init | pack | unpack | rdf _ => trivial
  | setSrc _ | setDst _ | parse _ | mutate _ | wrf _ _ => rfl

/-- Settles O6: the decoder, run on the words of R60 to R62. -/
theorem writtenOutWordsDecode : Obligations.WrittenOutWordsDecode := by
  unfold Obligations.WrittenOutWordsDecode
  decide

/-- Settles O7: the encoding of an instruction is a presentation of it. -/
theorem decodeInvertsEncode : Obligations.DecodeInvertsEncode := by
  intro i hwf
  exact (decode_ok_iff _ i).2 ⟨rfl, portsHold_encode i, hwf⟩

/-! ### The legal presentations (30_encoding.md R66) -/

/-- The nine fields, in selector order. -/
def allFields : List Field :=
  [.source, .destination, .sequence, .acknowledgment, .data_offset, .control_bits, .window_size, .checksum,
   .urgent_pointer]

theorem mem_allFields (f : Field) : f ∈ allFields := by
  cases f <;> decide

/-- The command words of RDF. -/
def rdfWords : List Byte :=
  allFields.map fun f => commandWord (selOfField f) 0x7

/-- The command words of WRF for the fields of width `w`. -/
def wrfWords (w : Nat) : List Byte :=
  (allFields.filter fun f => Machine.fieldWidth f = w).map fun f => commandWord (selOfField f) 0x8

theorem mem_rdfWords (cw : Byte) : cw ∈ rdfWords ↔ ∃ f, cw = commandWord (selOfField f) 0x7 := by
  simp [rdfWords, mem_allFields, eq_comm]

theorem mem_wrfWords (cw : Byte) (w : Nat) :
    cw ∈ wrfWords w ↔ ∃ f, Machine.fieldWidth f = w ∧ cw = commandWord (selOfField f) 0x8 := by
  simp [wrfWords, mem_allFields, eq_comm]

/-- The words of R66, row by row: those of RDF, and those of WRF by the width of their field. -/
theorem legal_field_words :
    rdfWords = [0x07, 0x17, 0x27, 0x37, 0x47, 0x57, 0x67, 0x77, 0x87] ∧
    wrfWords 16 = [0x08, 0x18, 0x68, 0x78, 0x88] ∧ wrfWords 32 = [0x28, 0x38] ∧
    wrfWords 4 = [0x48] ∧ wrfWords 9 = [0x58] := by
  decide

theorem fieldFits_iff (f : Field) (data : Word) :
    Machine.fieldFits f data = true ↔ data.toNat < 2 ^ Machine.fieldWidth f := by
  simp [Machine.fieldFits]

theorem fieldWidth_cases (f : Field) : Machine.fieldWidth f = 16 ∨ Machine.fieldWidth f = 32 ∨
    Machine.fieldWidth f = 4 ∨ Machine.fieldWidth f = 9 := by
  cases f <;> decide

/-- A legal presentation, family by family of the decoder. -/
theorem exists_decode_iff (p : Presented) : (∃ i, decode p = .ok i) ↔
    p.cw ∈ ([0x00, 0x03, 0x04, 0x05] : List Byte) ∨
    (p.cw ∈ ([0x01, 0x02, 0x06] : List Byte) ∧ Machine.textPresent p.text = true) ∨
    p.cw ∈ rdfWords ∨
    ∃ w, p.cw ∈ wrfWords w ∧ p.data.toNat < 2 ^ w := by
  simp only [decode_ok_iff, mem_rdfWords, mem_wrfWords]
  constructor
  · rintro ⟨i, hcw, hports, hwf⟩
    rw [hcw]
    cases i with
    | init | mutate _ | pack | unpack => exact .inl (by simp only [encode]; decide)
    | setSrc t | setDst t | parse t =>
      exact .inr (.inl ⟨by simp only [encode]; decide, hports.symm ▸ hwf⟩)
    | rdf f => exact .inr (.inr (.inl ⟨f, rfl⟩))
    | wrf f data =>
      exact .inr (.inr (.inr ⟨_, ⟨f, rfl, rfl⟩, hports.symm ▸ (fieldFits_iff f data).1 hwf⟩))
  · simp only [List.mem_cons, List.not_mem_nil, or_false]
    rintro ((hcw | hcw | hcw | hcw) | ⟨hcw | hcw | hcw, htext⟩ | ⟨f, hcw⟩ | ⟨w, ⟨f, rfl, hcw⟩, hdata⟩)
    · exact ⟨.init, hcw, trivial, rfl⟩
    · exact ⟨.mutate p.lctx, hcw, rfl, rfl⟩
    · exact ⟨.pack, hcw, trivial, rfl⟩
    · exact ⟨.unpack, hcw, trivial, rfl⟩
    · exact ⟨.setSrc p.text, hcw, rfl, htext⟩
    · exact ⟨.setDst p.text, hcw, rfl, htext⟩
    · exact ⟨.parse p.text, hcw, rfl, htext⟩
    · exact ⟨.rdf f, hcw, trivial, rfl⟩
    · exact ⟨.wrf f p.data, hcw, rfl, (fieldFits_iff f p.data).2 hdata⟩

/-- A field has one of four widths, and data on the 32-bit port fits a field of 32 bits. -/
theorem exists_wrfWords_iff (cw : Byte) (data : Word) : (∃ w, cw ∈ wrfWords w ∧ data.toNat < 2 ^ w) ↔
    (cw ∈ wrfWords 16 ∧ data.toNat < 2 ^ 16) ∨ cw ∈ wrfWords 32 ∨
    (cw ∈ wrfWords 4 ∧ data.toNat < 2 ^ 4) ∨ (cw ∈ wrfWords 9 ∧ data.toNat < 2 ^ 9) := by
  constructor
  · rintro ⟨w, hcw, hdata⟩
    obtain ⟨f, rfl, -⟩ := (mem_wrfWords cw w).1 hcw
    rcases fieldWidth_cases f with hw | hw | hw | hw <;> rw [hw] at hcw hdata
    · exact .inl ⟨hcw, hdata⟩
    · exact .inr (.inl hcw)
    · exact .inr (.inr (.inl ⟨hcw, hdata⟩))
    · exact .inr (.inr (.inr ⟨hcw, hdata⟩))
  · rintro (⟨hcw, hdata⟩ | hcw | ⟨hcw, hdata⟩ | ⟨hcw, hdata⟩)
    · exact ⟨16, hcw, hdata⟩
    · exact ⟨32, hcw, data.isLt⟩
    · exact ⟨4, hcw, hdata⟩
    · exact ⟨9, hcw, hdata⟩

/-- Settles O8: an instruction is presented by its word with its operands on the ports, and the words of the nine
instructions, with their operands left free, are the legal ones. -/
theorem decodeAcceptsExactlyLegalPresentations : Obligations.DecodeAcceptsExactlyLegalPresentations := by
  intro p
  obtain ⟨hrdf, h16, h32, h4, h9⟩ := legal_field_words
  rw [exists_decode_iff, exists_wrfWords_iff, hrdf, h16, h32, h4, h9, Machine.textPresent_iff, List.mem_singleton,
    List.mem_singleton]

/-! ### The opcode table (30_encoding.md R60) -/

/-- The word of an instruction matches the row of its mnemonic, and that row is in the table. -/
theorem encode_matches_row (i : Instr) :
    ∃ r ∈ opcodeRows, r.mnemonic = mnemonicOf i ∧ (encode i).cw &&& r.mask = r.pattern := by
  have selected : ∀ sel op : BitVec 4, commandWord sel op &&& 0x0F = commandWord 0 op := by decide
  cases i with
  | init => exact ⟨⟨"INIT", 0x00, 0xFF⟩, by decide, rfl, by decide⟩
  | setSrc t => exact ⟨⟨"SETSRC", 0x01, 0xFF⟩, by decide, rfl, (by decide : commandWord 0 1 &&& 0xFF = 0x01)⟩
  | setDst t => exact ⟨⟨"SETDST", 0x02, 0xFF⟩, by decide, rfl, (by decide : commandWord 0 2 &&& 0xFF = 0x02)⟩
  | mutate l => exact ⟨⟨"MUTATE", 0x03, 0xFF⟩, by decide, rfl, (by decide : commandWord 0 3 &&& 0xFF = 0x03)⟩
  | pack => exact ⟨⟨"PACK", 0x04, 0xFF⟩, by decide, rfl, by decide⟩
  | unpack => exact ⟨⟨"UNPACK", 0x05, 0xFF⟩, by decide, rfl, by decide⟩
  | parse t => exact ⟨⟨"PARSE", 0x06, 0xFF⟩, by decide, rfl, (by decide : commandWord 0 6 &&& 0xFF = 0x06)⟩
  | rdf f => exact ⟨⟨"RDF", 0x07, 0x0F⟩, by decide, rfl, (selected _ 7).trans (by decide)⟩
  | wrf f data => exact ⟨⟨"WRF", 0x08, 0x0F⟩, by decide, rfl, (selected _ 8).trans (by decide)⟩

/-- Every row of the table fixes the operation bits of the word to its pattern. -/
theorem op_bits_of_row (cw : Byte) (r : OpcodeRow) (hr : r ∈ opcodeRows) (h : cw &&& r.mask = r.pattern) :
    cw &&& 0x0F = r.pattern := by
  have hrow : ∀ r ∈ opcodeRows, r.mask &&& 0x0F = 0x0F ∧ r.pattern &&& 0x0F = r.pattern := by decide
  obtain ⟨hmask, hpattern⟩ := hrow r hr
  rw [← hpattern, ← h, BitVec.and_assoc, hmask]

/-- Settles O9: the rows differ in the operation bits, which every row's mask covers; what decodes has the word of its
instruction, and that word matches the row of its mnemonic. -/
theorem opcodeRowsTellCommandsApart : Obligations.OpcodeRowsTellCommandsApart := by
  constructor
  · intro cw r₁ hr₁ r₂ hr₂ h₁ h₂
    have patterns_apart : ∀ r₁ ∈ opcodeRows, ∀ r₂ ∈ opcodeRows, r₁.pattern = r₂.pattern → r₁ = r₂ := by decide
    exact patterns_apart r₁ hr₁ r₂ hr₂ ((op_bits_of_row cw r₁ hr₁ h₁).symm.trans (op_bits_of_row cw r₂ hr₂ h₂))
  · intro p i hdec
    obtain ⟨hcw, -, hwf⟩ := (decode_ok_iff p i).1 hdec
    rw [hcw]
    exact ⟨hwf, rfl, encode_matches_row i⟩

/-! ### The status output (30_encoding.md R63) -/

/-- The bits of a status stand for that status. -/
theorem decodeStatus_encodeStatus (st : Status) : decodeStatus (encodeStatus st).1 (encodeStatus st).2 = some st := by
  cases st <;> rfl

/-- Kinds 0 to 2 stand for their status whatever the code output carries. -/
theorem decodeStatus_any_code (st : Status) (ext : Option ExtCode) (h : ∀ e, st ≠ .foreign e) :
    decodeStatus (encodeStatus st).1 ext = some st := by
  cases st with
  | none | badField | missingData => rfl
  | foreign e => exact absurd rfl (h e)

/-- Settles O10: the kind numbers the statuses apart, and only a foreign status needs its code to be read back. -/
theorem statusOutputBitsRoundTrip : Obligations.StatusOutputBitsRoundTrip :=
  ⟨rfl, rfl, rfl, fun _ => rfl, decodeStatus_encodeStatus, decodeStatus_any_code⟩

end Sys2Proof
end

section
/-! PROOFS. What a command reads and what it writes (10_state.md sections 2 to 5 and 7): one theorem for the nine
commands, and from it the frames, the noninterference statements and the invariant of the Buffer. -/

namespace Sys2Proof.Machine

/-! ### What a command reads, and where it writes -/

/-- The two states agree on all that `i` reads: SEG and the draw counter; for PACK the Buffer and its answers, for UNPACK
the Buffer, for MUTATE the configuration and the callback's answers. -/
def ReadsAlike (i : Instr) (s s' : State) : Prop :=
  s'.seg = s.seg ∧ s'.draws = s.draws ∧
  match i with
  | .pack => s'.buf = s.buf ∧ s'.reserves = s.reserves
  | .unpack => s'.buf = s.buf
  | .mutate _ => s'.mutator = s.mutator ∧ s'.callbacks = s.callbacks
  | .init | .setSrc _ | .setDst _ | .parse _ | .rdf _ | .wrf _ _ => True

/-- `s` with what `i` may write taken from `t`: SEG, the outputs and the draw counter; for PACK the Buffer and its answers,
for MUTATE the callback's answers. -/
def writtenFrom (i : Instr) (t s : State) : State :=
  let own : State := { s with seg := t.seg, answer := t.answer, call := t.call, draws := t.draws }
  match i with
  | .pack => { own with buf := t.buf, reserves := t.reserves }
  | .mutate _ => { own with callbacks := t.callbacks }
  | .init | .setSrc _ | .setDst _ | .unpack | .parse _ | .rdf _ | .wrf _ _ => own

/-- A setter writes the same SEG, answer and draw counter into any state with the same SEG and draw counter. -/
theorem setPort_of_readsAlike (put : Segment → Half → Segment) (t : PortText) (s s' u : State)
    (hseg : s'.seg = s.seg) (hdraws : s'.draws = s.draws) (h : setPort put t s = .next u) :
    setPort put t s' = .next { s' with seg := u.seg, answer := u.answer, call := u.call, draws := u.draws } := by
  obtain ⟨seg, buf, mutator, inputs, reserves, callbacks, answer, call, draws⟩ := s'
  obtain rfl : seg = s.seg := hseg
  obtain rfl : draws = s.draws := hdraws
  obtain ⟨ht, ⟨v, hv, rfl⟩ | ⟨hbad, rfl⟩⟩ := setPort_next put t s u h
  · exact setPort_of_ok put t _ v ht hv
  · exact setPort_of_badField put t _ ht hbad

/-- PACK follows the Buffer's answer. -/
theorem execPack_of_ok (s : State) (h : s.reserveAnswer Config.hdrLen = .ok) :
    execPack s = .next (packReserved s.afterReserve) := by
  simp only [execPack, h]

theorem execPack_of_fail (s : State) (e : BufError) (after : List Byte)
    (h : s.reserveAnswer Config.hdrLen = .fail e after) : execPack s = .next (packFailed e after s.afterReserve) := by
  simp only [execPack, h]

/-- What the Buffer answers depends on its listed answers or, without one, on the draw counter and its content. -/
theorem reserveAnswer_of_readsAlike (s s' : State) (n : Nat) (halike : ReadsAlike .pack s s') :
    s'.reserveAnswer n = s.reserveAnswer n := by
  obtain ⟨-, hdraws, hbuf, hreserves⟩ := halike
  simp only [State.reserveAnswer, hdraws, hbuf, hreserves]

/-- Taking an answer of the Buffer does the same to the list of its answers and to the draw counter. -/
theorem afterReserve_of_readsAlike (s s' : State) (halike : ReadsAlike .pack s s') :
    s'.afterReserve = { s' with reserves := s.afterReserve.reserves, draws := s.afterReserve.draws } ∧
    s.afterReserve.seg = s'.seg ∧ s.afterReserve.buf = s'.buf := by
  obtain ⟨hseg, hdraws, hbuf, hreserves⟩ := halike
  cases hr : s.reserves with
  | nil => simp [State.afterReserve, hreserves, hr, hseg, hbuf, hdraws, State.spend]
  | cons a rest => simp [State.afterReserve, hreserves, hr, hseg, hbuf, hdraws]

theorem exec_pack_of_readsAlike (s s' t : State) (h : exec .pack s = .next t) (halike : ReadsAlike .pack s s') :
    exec .pack s' = .next (writtenFrom .pack t s') := by
  have hanswer := reserveAnswer_of_readsAlike s s' Config.hdrLen halike
  obtain ⟨hafter, hseg, hbuf⟩ := afterReserve_of_readsAlike s s' halike
  rcases execPack_next s t h with ⟨hok, rfl⟩ | ⟨e, after, hfail, rfl⟩
  · refine (execPack_of_ok s' (hanswer.trans hok)).trans ?_
    rw [packReserved_eq, packReserved_eq, hafter, hseg, hbuf]
    rfl
  · refine (execPack_of_fail s' e after (hanswer.trans hfail)).trans ?_
    rw [packFailed_eq, packFailed_eq, hafter, hseg]
    rfl

theorem exec_unpack_of_readsAlike (s s' t : State) (h : exec .unpack s = .next t) (halike : ReadsAlike .unpack s s') :
    exec .unpack s' = .next (writtenFrom .unpack t s') := by
  obtain ⟨seg, buf, mutator, inputs, reserves, callbacks, answer, call, draws⟩ := s'
  obtain ⟨rfl, rfl, rfl⟩ := halike
  rcases execUnpack_next s t h with ⟨hshort, rfl⟩ | ⟨hlong, g, hg, rfl⟩
  · exact exec_unpack_of_short _ hshort
  · exact exec_unpack_of_readHeader _ g hlong hg

theorem exec_mutate_of_readsAlike (l : Option LCtx) (s s' t : State) (h : exec (.mutate l) s = .next t)
    (halike : ReadsAlike (.mutate l) s s') :
    exec (.mutate l) s' = .next (writtenFrom (.mutate l) t s') := by
  obtain ⟨seg, buf, mutator, inputs, reserves, callbacks, answer, call, draws⟩ := s'
  obtain ⟨rfl, rfl, rfl, rfl⟩ := halike
  obtain ⟨seg, buf, mutator, inputs, reserves, callbacks, answer, call, draws⟩ := s
  rcases execMutate_next l _ t h with ⟨rfl, rfl⟩ | ⟨ctx, rfl, rfl⟩
  · rfl
  · cases callbacks <;> rfl

theorem exec_wrf_of_fits (f : Field) (data : Word) (s : State) (h : fieldFits f data = true) :
    exec (.wrf f data) s = .next ({ s with seg := writeField s.seg f data }.answering .none .absent) :=
  if_pos h

/-- A command's answer and writes depend on nothing but what it reads, and it leaves all else. -/
theorem exec_of_readsAlike (i : Instr) (s s' t : State) (h : exec i s = .next t) (halike : ReadsAlike i s s') :
    exec i s' = .next (writtenFrom i t s') := by
  have hown := halike
  obtain ⟨seg, buf, mutator, inputs, reserves, callbacks, answer, call, draws⟩ := s'
  obtain ⟨rfl, rfl, -⟩ := hown
  cases i with
  | init | rdf f =>
    cases h
    rfl
  | setSrc t =>
    rw [exec_setSrc] at h ⊢
    exact setPort_of_readsAlike _ t s _ _ rfl rfl h
  | setDst t =>
    rw [exec_setDst] at h ⊢
    exact setPort_of_readsAlike _ t s _ _ rfl rfl h
  | parse t =>
    obtain ⟨ht, ⟨v, hv, rfl⟩ | ⟨hbad, rfl⟩⟩ := execParse_next t s _ h
    · exact exec_parse_of_ok t _ v ht hv
    · exact exec_parse_of_badField t _ ht hbad
  | wrf f data =>
    obtain ⟨hfits, rfl⟩ := execWrf_next f data s t h
    exact exec_wrf_of_fits f data _ hfits
  | pack => exact exec_pack_of_readsAlike s _ t h halike
  | unpack => exact exec_unpack_of_readsAlike s _ t h halike
  | mutate l => exact exec_mutate_of_readsAlike l s _ t h halike

theorem readsAlike_refl (i : Instr) (s : State) : ReadsAlike i s s := by
  cases i <;> simp [ReadsAlike]

/-- What a command leaves unchanged: all that is not its own to write. -/
theorem eq_writtenFrom_of_exec (i : Instr) (s t : State) (h : exec i s = .next t) : t = writtenFrom i t s :=
  Host.Outcome.next.inj (h.symm.trans (exec_of_readsAlike i s s t h (readsAlike_refl i s)))

/-! ### Frames (10_state.md sections 3, 5 and 7) -/

/-- Settles O54: the configuration and the inputs are no command's to write, each list of answers only one command's. -/
theorem environmentFrame : Obligations.EnvironmentFrame := by
  intro i s t h
  rw [eq_writtenFrom_of_exec i s t h]
  cases i with
  | pack => exact ⟨rfl, rfl, fun hne => absurd rfl hne, fun _ => rfl⟩
  | mutate l => exact ⟨rfl, rfl, fun _ => rfl, fun hne => absurd rfl (hne l)⟩
  | init | setSrc _ | setDst _ | unpack | parse _ | rdf _ | wrf _ _ => exact ⟨rfl, rfl, fun _ => rfl, fun _ => rfl⟩

theorem exec_mutator (i : Instr) (s t : State) (h : exec i s = .next t) : t.mutator = s.mutator :=
  (environmentFrame i s t h).1

/-- The Buffer is PACK's alone to write. -/
theorem exec_buf (i : Instr) (s t : State) (hpack : i ≠ .pack) (h : exec i s = .next t) : t.buf = s.buf := by
  rw [eq_writtenFrom_of_exec i s t h]
  cases i with
  | pack => exact absurd rfl hpack
  | init | setSrc _ | setDst _ | mutate _ | unpack | parse _ | rdf _ | wrf _ _ => rfl

/-- Settles O56: a command other than PACK leaves the Buffer as it is, so its size and every byte. -/
theorem bufferFrame : Obligations.BufferFrame := by
  intro i s t hpack h
  rw [exec_buf i s t hpack h]
  exact ⟨rfl, fun _ => rfl⟩

/-! ### What makes no difference to a command

Each of the three statements changes one part of the state that the command does not read. The next states then agree in
their free values too, since these are a function of the draw counter (log 7); the statements do not ask for that. -/

@[simp] theorem writtenFrom_answer (i : Instr) (t s : State) : (writtenFrom i t s).answer = t.answer := by
  cases i <;> rfl

theorem writtenFrom_outputs (i : Instr) (t s : State) (a : Option Answer) (c : Option MutatorCall) :
    writtenFrom i t { s with answer := a, call := c } = writtenFrom i t s := by
  cases i <;> rfl

theorem writtenFrom_mutator (i : Instr) (t s : State) (m : Option MutCtx) :
    writtenFrom i t { s with mutator := m } = { writtenFrom i t s with mutator := m } := by
  cases i <;> rfl

theorem writtenFrom_buf (i : Instr) (t s : State) (m : Memory) (hpack : i ≠ .pack) :
    writtenFrom i t { s with buf := m } = { writtenFrom i t s with buf := m } := by
  cases i with
  | pack => exact absurd rfl hpack
  | init | setSrc _ | setDst _ | mutate _ | unpack | parse _ | rdf _ | wrf _ _ => rfl

theorem readsAlike_mutator (i : Instr) (s : State) (m : Option MutCtx) (hmutate : ∀ l, i ≠ .mutate l) :
    ReadsAlike i s { s with mutator := m } := by
  cases i with
  | mutate l => exact absurd rfl (hmutate l)
  | init | setSrc _ | setDst _ | parse _ | rdf _ | wrf _ _ => exact ⟨rfl, rfl, trivial⟩
  | pack => exact ⟨rfl, rfl, rfl, rfl⟩
  | unpack => exact ⟨rfl, rfl, rfl⟩

theorem readsAlike_buf (i : Instr) (s : State) (m : Memory) (hpack : i ≠ .pack) (hunpack : i ≠ .unpack) :
    ReadsAlike i s { s with buf := m } := by
  cases i with
  | pack => exact absurd rfl hpack
  | unpack => exact absurd rfl hunpack
  | init | setSrc _ | setDst _ | parse _ | rdf _ | wrf _ _ => exact ⟨rfl, rfl, trivial⟩
  | mutate l => exact ⟨rfl, rfl, rfl, rfl⟩

/-- Settles O58: the outputs of the last step are read by no command, and every command overwrites both. -/
theorem statusIsNotLatched : Obligations.StatusIsNotLatched := by
  intro i s t a c _ _ h
  refine ⟨_, exec_of_readsAlike i s _ t h (readsAlike_refl i s), by rw [writtenFrom_answer], fun _ => ?_⟩
  rw [writtenFrom_outputs, ← eq_writtenFrom_of_exec i s t h]

/-- Settles O59: the configuration is read by MUTATE alone, and passed on unchanged. -/
theorem mutatorReadOnlyByMutate : Obligations.MutatorReadOnlyByMutate := by
  intro i s t m hmutate _ h
  refine ⟨_, exec_of_readsAlike i s _ t h (readsAlike_mutator i s m hmutate), by rw [writtenFrom_answer], fun _ => ?_⟩
  rw [writtenFrom_mutator, ← eq_writtenFrom_of_exec i s t h]

/-- Settles O60: the Buffer is read by PACK and UNPACK alone, and every other command passes it on unchanged. -/
theorem bufferReachedOnlyByPackAndUnpack : Obligations.BufferReachedOnlyByPackAndUnpack := by
  intro i s t m hpack hunpack _ h
  refine ⟨_, exec_of_readsAlike i s _ t h (readsAlike_buf i s m hpack hunpack), by rw [writtenFrom_answer], fun _ => ?_⟩
  rw [writtenFrom_buf i t s m hpack, ← eq_writtenFrom_of_exec i s t h]

end Sys2Proof.Machine
end

section
/-! PROOFS. What a step keeps and when it answers (70_reset_and_hazards.md, 60_exceptions.md): one equation per kind of
input, the invariant of the Buffer, the configuration, and that no step faults. -/

namespace Sys2Proof.Machine

/-! ### One equation per kind of input -/

theorem step_idle (s : State) (h : s.inputs = []) : step s = .next s.quiet := by
  simp only [step, h]

theorem step_input (s : State) (x : HostInput) (rest : List HostInput) (h : s.inputs = x :: rest) :
    step s = react x { s with inputs := rest } := by
  simp only [step, h]

theorem perform_of_decode (p : Presented) (i : Instr) (s : State) (h : decode p = .ok i) : perform p s = exec i s := by
  simp only [perform, h]

theorem perform_of_error (p : Presented) (e : DecodeError) (s : State) (h : decode p = .error e) :
    perform p s = .refused (.notACommand e) := by
  simp only [perform, h]

/-- Settles O1: `State.reset` has no input, so a step from it quiets outputs that are quiet already. -/
theorem resetStateIsIdle : Obligations.ResetStateIsIdle :=
  ⟨wf_nil, rfl, rfl, rfl, step_idle State.reset rfl⟩

/-- Settles O2: the step reacts to the reset, which draws SEG and quiets the outputs. -/
theorem resetSpoilsOnlySeg : Obligations.ResetSpoilsOnlySeg := by
  intro s rest h
  exact ⟨drawSegment s.draws, s.draws + 9, step_input s .reset rest h⟩

/-- Settles O3: with no input waiting a step is `quiet`. -/
theorem idleStepOnlyQuietsOutputs : Obligations.IdleStepOnlyQuietsOutputs :=
  step_idle

/-- The command of a table word, presented ahead of every other input. -/
theorem step_withFetchWord (s : State) (n w : Nat) : step (s.withFetchWord n w) = perform (tablePresented n w) s :=
  step_input (s.withFetchWord n w) _ s.inputs rfl

theorem decode_of_decodeTableWord (n w : Nat) (i : Instr) (h : decodeTableWord n w = some i) :
    decode (tablePresented n w) = .ok i := by
  unfold decodeTableWord at h
  cases hd : decode (tablePresented n w) with
  | ok j =>
    rw [hd] at h
    rw [Option.some.inj h]
  | error e =>
    rw [hd] at h
    cases h

/-- Settles O4: a step performs the presentation at the head of the queue. -/
theorem stepRunsThePresentedCommand : Obligations.StepRunsThePresentedCommand := by
  constructor
  · intro s p rest i hinputs hdecode
    exact (step_input s _ rest hinputs).trans (perform_of_decode p i _ hdecode)
  · intro s n w i hword
    exact (step_withFetchWord s n w).trans (perform_of_decode _ i s (decode_of_decodeTableWord n w i hword))

/-- Settles O5: each of the three inputs is refused under its own name. -/
theorem stepRefusesWhatIsNoCommand : Obligations.StepRefusesWhatIsNoCommand := by
  refine ⟨?_, fun s p q rest h => step_input s _ rest h, fun s p rest h => step_input s _ rest h⟩
  intro s p rest e hinputs hdecode
  exact (step_input s _ rest hinputs).trans (perform_of_error p e _ hdecode)

/-! ### What a step keeps -/

/-- PACK leaves a canonical Buffer: a header in front of one, or what the Buffer left. -/
theorem exec_pack_inv (s t : State) (hinv : s.Inv) (h : exec .pack s = .next t) : t.Inv := by
  obtain ⟨rs, d, hafter⟩ := afterReserve_cases s
  rcases execPack_next s t h with ⟨-, rfl⟩ | ⟨e, after, -, rfl⟩
  · rw [State.Inv, packReserved_buf, hafter]
    exact wf_reserve _ _ hinv
  · exact wf_ofBytes after

/-- Every command keeps the Buffer canonical. -/
theorem exec_inv (i : Instr) (s t : State) (hinv : s.Inv) (h : exec i s = .next t) : t.Inv := by
  by_cases hpack : i = .pack
  · subst hpack
    exact exec_pack_inv s t hinv h
  · rw [State.Inv, exec_buf i s t hpack h]
    exact hinv

/-- Settles O51: a command keeps the canonical form, a change of the Buffer by the host numbers its bytes anew, and a reset
and an idle step do not touch the Buffer. -/
theorem stepKeepsBufferCanonical : Obligations.StepKeepsBufferCanonical := by
  intro s t hinv h
  rcases step_next s t h with ⟨-, rfl⟩ | ⟨p, rest, i, -, -, hexec⟩ | ⟨bytes, rest, -, rfl⟩ | ⟨rest, -, rfl⟩
  · exact hinv
  · exact exec_inv i { s with inputs := rest } t hinv hexec
  · exact wf_ofBytes bytes
  · exact hinv

/-- Settles O53: the configuration is no command's to write, and no other input's. -/
theorem configurationIsConstant : Obligations.ConfigurationIsConstant := by
  intro s t h
  rcases step_next s t h with ⟨-, rfl⟩ | ⟨p, rest, i, -, -, hexec⟩ | ⟨bytes, rest, -, rfl⟩ | ⟨rest, -, rfl⟩
  · rfl
  · exact exec_mutator i { s with inputs := rest } t hexec
  · rfl
  · rfl

end Sys2Proof.Machine
end

section
/-! PROOFS. MUTATE and the callback (44_mutator.md): what MUTATE does without and with a callback, and that no other command
reaches the callback. -/

namespace Sys2Proof.Machine

/-! ### MUTATE (44_mutator.md R100 to R104) -/

theorem exec_mutate_detached (l : Option LCtx) (s : State) (h : s.mutator = none) :
    exec (.mutate l) s = .next (s.answering .none .absent) := by
  simp only [exec, execMutate, h]

theorem exec_mutate_attached (l : Option LCtx) (s : State) (ctx : MutCtx) (h : s.mutator = some ctx) :
    exec (.mutate l) s = .next (runCallback ctx l s) := by
  simp only [exec, execMutate, h]

/-- MUTATE answers from every state. -/
theorem exec_mutate_complete (l : Option LCtx) (s : State) : ∃ t, exec (.mutate l) s = .next t := by
  cases h : s.mutator with
  | none => exact ⟨_, exec_mutate_detached l s h⟩
  | some ctx => exact ⟨_, exec_mutate_attached l s ctx h⟩

/-- Settles O47: without a callback MUTATE only answers. -/
theorem mutateWithoutCallbackIsNoOp : Obligations.MutateWithoutCallbackIsNoOp :=
  exec_mutate_detached

/-- What the callback's answer leaves. -/
theorem runCallback_eq (ctx : MutCtx) (l : Option LCtx) (s : State) : runCallback ctx l s = { s.afterCallback with
    seg := (s.callbackAnswer ⟨ctx, s.seg, l⟩).seg
    answer := some ⟨(s.callbackAnswer ⟨ctx, s.seg, l⟩).st, .absent⟩
    call := some ⟨ctx, s.seg, l⟩ } := rfl

/-- Settles O48: the next state is the callback's answer on the outputs and in SEG, and taking that answer changes nothing
else but the list it is taken from and the draw counter. -/
theorem mutateTakesCallbackAnswer : Obligations.MutateTakesCallbackAnswer := by
  intro l s ctx hctx
  rw [exec_mutate_attached l s ctx hctx, runCallback_eq]
  constructor
  · obtain ⟨cs, d, hafter⟩ := afterCallback_cases s
    rw [hafter]
    exact ⟨_, _, cs, d, rfl⟩
  · intro a rest hlisted
    rw [callbackAnswer_listed s _ a rest hlisted, afterCallback_listed s a rest hlisted]

/-- A command that is not MUTATE hands nothing to the callback. -/
theorem exec_call (i : Instr) (s t : State) (hmutate : ∀ l, i ≠ .mutate l) (h : exec i s = .next t) : t.call = none := by
  cases i with
  | mutate l => exact absurd rfl (hmutate l)
  | init | rdf _ =>
    cases h
    rfl
  | setSrc p =>
    obtain ⟨-, ⟨v, -, rfl⟩ | ⟨-, rfl⟩⟩ := execSetSrc_next p s t h <;> rfl
  | setDst p =>
    obtain ⟨-, ⟨v, -, rfl⟩ | ⟨-, rfl⟩⟩ := execSetDst_next p s t h <;> rfl
  | parse p =>
    obtain ⟨-, ⟨v, -, rfl⟩ | ⟨-, rfl⟩⟩ := execParse_next p s t h <;> rfl
  | wrf f data =>
    obtain ⟨-, rfl⟩ := execWrf_next f data s t h
    rfl
  | pack =>
    obtain ⟨-, rfl⟩ | ⟨e, after, -, rfl⟩ := execPack_next s t h <;> rfl
  | unpack =>
    obtain ⟨-, rfl⟩ | ⟨-, g, -, rfl⟩ := execUnpack_next s t h <;> rfl

/-- Settles O49: MUTATE has an answer with and without a callback, and no other command writes the mutator port or takes
from the callback's answers. -/
theorem onlyMutateInvokesCallback : Obligations.OnlyMutateInvokesCallback := by
  refine ⟨exec_mutate_complete, ?_⟩
  intro i s t hmutate h
  obtain ⟨-, -, -, hcallbacks⟩ := environmentFrame i s t h
  exact ⟨exec_call i s t hmutate h, hcallbacks hmutate⟩

end Sys2Proof.Machine
end

section
/-! PROOFS. The commands, their answers and refusals (60_exceptions.md R110 to R123): which terms are refused, that every
other command answers, and the statuses of each. -/

namespace Sys2Proof.Machine

/-! ### Refusals (30_encoding.md R62) -/

theorem setPort_of_short (put : Segment → Half → Segment) (t : PortText) (s : State) (h : textPresent t = false) :
    setPort put t s = .refused (.notACommand (.shortText t)) := by
  simp [setPort, h]

theorem exec_parse_of_short (t : PortText) (s : State) (h : textPresent t = false) :
    exec (.parse t) s = .refused (.notACommand (.shortText t)) := by
  simp [exec, execParse, h]

theorem exec_wrf_of_wide (f : Field) (data : Word) (s : State) (h : fieldFits f data = false) :
    exec (.wrf f data) s = .refused (.notACommand (.overWideData f data)) := by
  simp [exec, execWrf, h]

/-- Settles O27: only a text operand and WRF data can be ill formed, and each meaning that takes one checks it. -/
theorem illFormedCommandsAreRefused : Obligations.IllFormedCommandsAreRefused := by
  intro i s hwf
  cases i with
  | setSrc t => exact ⟨_, (exec_setSrc t s).trans (setPort_of_short _ t s hwf)⟩
  | setDst t => exact ⟨_, (exec_setDst t s).trans (setPort_of_short _ t s hwf)⟩
  | parse t => exact ⟨_, exec_parse_of_short t s hwf⟩
  | wrf f data => exact ⟨_, exec_wrf_of_wide f data s hwf⟩
  | init | mutate _ | pack | unpack | rdf _ => cases hwf

/-! ### Statuses (R110) -/

/-- A setter answers None or BadField, without a value. -/
theorem setPort_answer (put : Segment → Half → Segment) (p : PortText) (s t : State) (h : setPort put p s = .next t) :
    t.answer = some ⟨.none, .absent⟩ ∨ t.answer = some ⟨.badField, .absent⟩ := by
  obtain ⟨-, ⟨v, -, rfl⟩ | ⟨-, rfl⟩⟩ := setPort_next put p s t h
  · exact .inl rfl
  · exact .inr rfl

/-- Settles O57: the statuses are those of the cases that each command's inversion lemma lists. -/
theorem statusesOfEachCommand : Obligations.StatusesOfEachCommand := by
  intro i s t h
  cases i with
  | init =>
    cases h
    rfl
  | setSrc p =>
    rw [exec_setSrc] at h
    exact setPort_answer _ p s t h
  | setDst p =>
    rw [exec_setDst] at h
    exact setPort_answer _ p s t h
  | mutate l =>
    rcases execMutate_next l s t h with ⟨-, rfl⟩ | ⟨ctx, hctx, rfl⟩
    · exact ⟨.none, rfl, fun _ => rfl⟩
    · exact ⟨_, rfl, fun hnone => absurd (hnone.symm.trans hctx) (by simp)⟩
  | pack =>
    rcases execPack_next s t h with ⟨hok, rfl⟩ | ⟨e, after, hfail, rfl⟩
    · exact .inl ⟨hok, packReserved_answer _⟩
    · exact .inr ⟨e, after, hfail, rfl, statusOfError_ne_none e⟩
  | unpack =>
    rcases execUnpack_next s t h with ⟨-, rfl⟩ | ⟨-, g, -, rfl⟩
    · exact .inr rfl
    · exact .inl rfl
  | parse p =>
    obtain ⟨-, ⟨v, -, rfl⟩ | ⟨-, rfl⟩⟩ := execParse_next p s t h
    · exact ⟨v, .inl rfl⟩
    · exact ⟨_, .inr rfl⟩
  | rdf f =>
    cases h
    exact ⟨_, rfl⟩
  | wrf f data =>
    obtain ⟨-, rfl⟩ := execWrf_next f data s t h
    rfl

/-! ### Every well-formed command answers -/

theorem setPort_complete (put : Segment → Half → Segment) (p : PortText) (s : State) (hp : textPresent p = true) :
    ∃ t, setPort put p s = .next t := by
  rcases parsePort_cases p with ⟨v, hv⟩ | hbad
  · exact ⟨_, setPort_of_ok put p s v hp hv⟩
  · exact ⟨_, setPort_of_badField put p s hp hbad⟩

theorem exec_parse_complete (p : PortText) (s : State) (hp : textPresent p = true) :
    ∃ t, exec (.parse p) s = .next t := by
  rcases parsePort_cases p with ⟨v, hv⟩ | hbad
  · exact ⟨_, exec_parse_of_ok p s v hp hv⟩
  · exact ⟨_, exec_parse_of_badField p s hp hbad⟩

theorem exec_unpack_complete (s : State) (hinv : s.Inv) : ∃ t, exec .unpack s = .next t := by
  rcases Nat.lt_or_ge s.buf.size 20 with hshort | hlong
  · exact ⟨_, exec_unpack_of_short s hshort⟩
  · exact ⟨_, exec_unpack_of_inv s hinv hlong⟩

/-- Every well-formed command answers a next state from every state with a canonical Buffer. -/
theorem exec_complete (i : Instr) (s : State) (hwf : i.wf = true) (hinv : s.Inv) : ∃ t, exec i s = .next t := by
  cases i with
  | init => exact ⟨_, exec_init s⟩
  | setSrc p =>
    rw [exec_setSrc]
    exact setPort_complete _ p s hwf
  | setDst p =>
    rw [exec_setDst]
    exact setPort_complete _ p s hwf
  | mutate l => exact exec_mutate_complete l s
  | pack => exact ⟨_, rfl⟩
  | unpack => exact exec_unpack_complete s hinv
  | parse p => exact exec_parse_complete p s hwf
  | rdf f => exact ⟨_, exec_rdf f s⟩
  | wrf f data => exact ⟨_, exec_wrf_of_fits f data s hwf⟩

/-- A command that ends in a next state carries an answer. -/
theorem exec_answer (i : Instr) (s t : State) (h : exec i s = .next t) : ∃ a, t.answer = some a := by
  have hstatus := statusesOfEachCommand i s t h
  cases i with
  | init | wrf _ _ => exact ⟨_, hstatus⟩
  | setSrc _ | setDst _ | unpack => exact hstatus.elim (fun ha => ⟨_, ha⟩) (fun ha => ⟨_, ha⟩)
  | mutate _ =>
    obtain ⟨st, ha, -⟩ := hstatus
    exact ⟨_, ha⟩
  | pack =>
    rcases hstatus with ⟨-, ha⟩ | ⟨e, after, -, ha, -⟩
    · exact ⟨_, ha⟩
    · exact ⟨_, ha⟩
  | parse _ =>
    obtain ⟨v, ha | ha⟩ := hstatus
    · exact ⟨_, ha⟩
    · exact ⟨_, ha⟩
  | rdf _ =>
    obtain ⟨v, ha⟩ := hstatus
    exact ⟨_, ha⟩

/-- Settles O50: a well-formed command reaches a next state, and with it an answer. -/
theorem wellFormedCommandsComplete : Obligations.WellFormedCommandsComplete := by
  intro i s hwf hinv
  obtain ⟨t, hexec⟩ := exec_complete i s hwf hinv
  obtain ⟨a, ha⟩ := exec_answer i s t hexec
  exact ⟨t, a, hexec, ha⟩

/-- A presented command does not fault: what decodes is well formed, so it answers. -/
theorem perform_ne_fault (p : Presented) (s : State) (r : Fault) (hinv : s.Inv) : perform p s ≠ .fault r := by
  cases hdecode : decode p with
  | ok i =>
    obtain ⟨-, -, hwf⟩ := (decode_ok_iff p i).1 hdecode
    obtain ⟨t, hexec⟩ := exec_complete i s hwf hinv
    rw [perform_of_decode p i s hdecode, hexec]
    exact nofun
  | error e =>
    rw [perform_of_error p e s hdecode]
    exact nofun

/-- Settles O52: of the inputs only a command can fault, and none does from a canonical Buffer. -/
theorem stepNeverFaultsOnCanonicalBuffer : Obligations.StepNeverFaultsOnCanonicalBuffer := by
  intro s r hinv
  cases hinputs : s.inputs with
  | nil =>
    rw [step_idle s hinputs]
    exact nofun
  | cons x rest =>
    rw [step_input s x rest hinputs]
    cases x with
    | present p => exact perform_ne_fault p { s with inputs := rest } r hinv
    | putBuffer _ | reset | overlap _ _ | bufferRace _ => exact nofun

/-- Settles O40: UNPACK answers on a short Buffer and on one of a header's length, and the two answers are different. -/
theorem unpackFailsExactlyWhenShort : Obligations.UnpackFailsExactlyWhenShort := by
  intro s hinv
  rcases Nat.lt_or_ge s.buf.size 20 with hshort | hlong
  · exact ⟨_, exec_unpack_of_short s hshort, fun _ => rfl, fun hlong => absurd hshort (Nat.not_lt.2 hlong)⟩
  · exact ⟨_, exec_unpack_of_inv s hinv hlong, fun hshort => absurd hshort (Nat.not_lt.2 hlong), fun _ => rfl⟩

end Sys2Proof.Machine
end

section
/-! PROOFS. The Port Parser and decimal numerals, and the commands that parse (40_port_parser.md, 41_segment_model.md R81 to
R87): the value of the scanned digits, and that the setters and PARSE agree. -/

namespace Sys2Proof.Machine

/-! ### The loop and decimal numerals (R71, R74) -/

/-- The number that digits write in decimal, the most significant first. -/
def decimalValue (bs : List Byte) : Nat :=
  Nat.ofDigits 10 (bs.map digitValue).reverse

theorem decimalValue_cons (c : Byte) (cs : List Byte) :
    decimalValue (c :: cs) = digitValue c * 10 ^ cs.length + decimalValue cs := by
  simp only [decimalValue, List.map_cons, List.reverse_cons, Nat.ofDigits_append, Nat.ofDigits_singleton,
    List.length_reverse, List.length_map]
  ring

/-- The loop answers the number that the digits write. -/
theorem accumulate_of_digits (bs : List Byte) (h : ∀ c ∈ bs, isDigit c = true) :
    accumulate 0 bs = some (decimalValue bs) := by
  induction bs with
  | nil => rfl
  | cons c cs ih =>
    obtain ⟨hc, hcs⟩ := List.forall_mem_cons.1 h
    rw [accumulate_digit _ _ _ hc, accumulate_shift cs _ _ (ih hcs), decimalValue_cons, Nat.zero_mul, Nat.zero_add]

/-- The parser on digits: the range check on the number they write. -/
theorem parseScanned_of_digits (bs : List Byte) (h : ∀ c ∈ bs, isDigit c = true) :
    parseScanned bs = if decimalValue bs ≤ 65535 then .ok (BitVec.ofNat 16 (decimalValue bs)) else .badField := by
  rw [parseScanned_of_accumulate bs _ (accumulate_of_digits bs h)]
  by_cases hle : decimalValue bs ≤ 65535
  · rw [if_neg (Nat.not_lt.2 hle), if_pos hle]
  · rw [if_pos (Nat.lt_of_not_le hle), if_neg hle]

/-- Settles O12: where every scanned byte is a digit the parser compares the number they write, and a byte that is none
makes it fail. -/
theorem parserReadsScannedDigitsAsDecimal : Obligations.ParserReadsScannedDigitsAsDecimal := by
  intro t _
  simp only [← isDigit_iff]
  show parseScanned (scannedText t) = if (∀ c ∈ scannedText t, isDigit c = true) ∧ decimalValue (scannedText t) ≤ 65535
    then .ok (BitVec.ofNat 16 (decimalValue (scannedText t))) else .badField
  by_cases hdigits : ∀ c ∈ scannedText t, isDigit c = true
  · rw [parseScanned_of_digits _ hdigits]
    simp only [and_iff_right hdigits]
  · rw [parseScanned_nondigit _ hdigits, if_neg fun hboth => hdigits hboth.1]

/-- Settles O16: `n` digits stay below `10 ^ n`, and five nines reach the bound. -/
theorem accumulatorNeedsSeventeenBits : Obligations.AccumulatorNeedsSeventeenBits := by
  constructor
  · intro bs v hlen hv
    have hlt : v < 10 ^ bs.length := accumulate_lt bs v hv
    have hle : 10 ^ bs.length ≤ 10 ^ 5 := Nat.pow_le_pow_right (by decide) hlen
    constructor <;> omega
  · exact ⟨[0x39, 0x39, 0x39, 0x39, 0x39], 99999, rfl, by decide, rfl, by decide⟩

/-! ### Empty text (D10) -/

theorem parsePort_empty (bs : List Byte) : parsePort ⟨bs, 0⟩ = .ok 0 := by
  simp [parsePort, scannedText, scanCount, parseScanned]

theorem textPresent_empty (bs : List Byte) : textPresent ⟨bs, 0⟩ = true := by
  simp [textPresent_iff]

/-- Settles O17: with LEN 0 nothing is scanned, so the accumulator keeps its first value. -/
theorem emptyPortTextIsZero : Obligations.EmptyPortTextIsZero := by
  refine ⟨parsePort_empty, fun bs s => ?_⟩
  exact (exec_setSrc _ s).trans (setPort_of_ok _ _ s 0 (textPresent_empty bs) (parsePort_empty bs))

/-! ### One equation per result of the parser (R70, R81, R82) -/

/-- Settles O18: PARSE has one equation per result of the parser, and each leaves all but the outputs and the draws. -/
theorem parseAnswersPortOrBadField : Obligations.ParseAnswersPortOrBadField := by
  intro t s hlen
  have hpresent := (textPresent_iff t).2 hlen
  exact ⟨fun v hv => exec_parse_of_ok t s v hpresent hv,
    fun hbad => ⟨Config.freeBits 16 s.draws, s.draws + 1, exec_parse_of_badField t s hpresent hbad⟩⟩

/-- What a setter leaves for each result of the parser. -/
theorem setPort_stores_or_spoils (put : Segment → Half → Segment) (t : PortText) (s : State)
    (hlen : min t.len 5 ≤ t.text.length) :
    (∀ v, parsePort t = .ok v → setPort put t s =
      .next { s with seg := put s.seg v, answer := some ⟨.none, .absent⟩, call := none }) ∧
    (parsePort t = .badField → ∃ v d, setPort put t s =
      .next { s with seg := put s.seg v, answer := some ⟨.badField, .absent⟩, call := none, draws := d }) := by
  have hpresent := (textPresent_iff t).2 hlen
  exact ⟨fun v hv => setPort_of_ok put t s v hpresent hv,
    fun hbad => ⟨Config.freeBits 16 s.draws, s.draws + 1, setPort_of_badField put t s hpresent hbad⟩⟩

/-- Settles O22: SETSRC is the setter that puts its value in `source` alone. -/
theorem setSrcStoresOrSpoilsSource : Obligations.SetSrcStoresOrSpoilsSource := by
  intro t s hlen
  rw [exec_setSrc]
  exact setPort_stores_or_spoils _ t s hlen

/-- Settles O23: SETDST is the setter that puts its value in `destination` alone. -/
theorem setDstStoresOrSpoilsDestination : Obligations.SetDstStoresOrSpoilsDestination := by
  intro t s hlen
  rw [exec_setDst]
  exact setPort_stores_or_spoils _ t s hlen

/-! ### The setters and PARSE (R87) -/

theorem exec_parse_none_iff (t : PortText) (s : State) (v : Half) :
    (∃ u, exec (.parse t) s = .next u ∧ u.answer = some ⟨.none, .port v⟩) ↔
      textPresent t = true ∧ parsePort t = .ok v := by
  constructor
  · rintro ⟨u, h, ha⟩
    obtain ⟨ht, ⟨w, hw, rfl⟩ | ⟨-, rfl⟩⟩ := execParse_next t s u h
    · cases ha
      exact ⟨ht, hw⟩
    · cases ha
  · rintro ⟨ht, hv⟩
    exact ⟨_, exec_parse_of_ok t s v ht hv, rfl⟩

theorem exec_parse_badField_iff (t : PortText) (s : State) :
    (∃ u v, exec (.parse t) s = .next u ∧ u.answer = some ⟨.badField, .port v⟩) ↔
      textPresent t = true ∧ parsePort t = .badField := by
  constructor
  · rintro ⟨u, v, h, ha⟩
    obtain ⟨ht, ⟨w, -, rfl⟩ | ⟨hbad, -⟩⟩ := execParse_next t s u h
    · cases ha
    · exact ⟨ht, hbad⟩
  · rintro ⟨ht, hbad⟩
    exact ⟨_, _, exec_parse_of_badField t s ht hbad, rfl⟩

/-- A setter whose field reads back what is put there answers None with `v` in it exactly on the texts that parse to `v`. -/
theorem setPort_none_iff (put : Segment → Half → Segment) (get : Segment → Half) (hget : ∀ g v, get (put g v) = v)
    (t : PortText) (s : State) (v : Half) :
    (∃ u, setPort put t s = .next u ∧ u.answer = some ⟨.none, .absent⟩ ∧ get u.seg = v) ↔
      textPresent t = true ∧ parsePort t = .ok v := by
  constructor
  · rintro ⟨u, h, ha, hv⟩
    obtain ⟨ht, ⟨w, hw, rfl⟩ | ⟨-, rfl⟩⟩ := setPort_next put t s u h
    · rw [answering_seg, hget] at hv
      exact ⟨ht, hv ▸ hw⟩
    · cases ha
  · rintro ⟨ht, hv⟩
    exact ⟨_, setPort_of_ok put t s v ht hv, rfl, hget _ _⟩

theorem setPort_badField_iff (put : Segment → Half → Segment) (t : PortText) (s : State) :
    (∃ u, setPort put t s = .next u ∧ u.answer = some ⟨.badField, .absent⟩) ↔
      textPresent t = true ∧ parsePort t = .badField := by
  constructor
  · rintro ⟨u, h, ha⟩
    obtain ⟨ht, ⟨w, -, rfl⟩ | ⟨hbad, -⟩⟩ := setPort_next put t s u h
    · cases ha
    · exact ⟨ht, hbad⟩
  · rintro ⟨ht, hbad⟩
    exact ⟨_, setPort_of_badField put t s ht hbad, rfl⟩

/-- Settles O19: each of the answers is given exactly on the texts with that result of the parser. -/
theorem settersAgreeWithParse : Obligations.SettersAgreeWithParse := by
  intro t s
  simp only [exec_parse_none_iff, exec_parse_badField_iff, exec_setSrc, exec_setDst, setPort_badField_iff]
  exact ⟨fun v => (setPort_none_iff _ Segment.source (fun _ _ => rfl) t s v).symm,
    fun v => (setPort_none_iff _ Segment.destination (fun _ _ => rfl) t s v).symm, trivial, trivial⟩

end Sys2Proof.Machine
end

section
/-! PROOFS. The Segment Model (41_segment_model.md R84 to R87) and the fields of SEG: the 32-bit view of a field, what a
write leaves in it and in the others, the control flags' masks, and the frame of every command on SEG. -/

namespace Sys2Proof.Machine

/-! ### The 32-bit view of a field (R84, R85) -/

/-- Data that fits a width loses nothing when it is cut to that width and extended again. -/
theorem setWidth_setWidth_of_fits (data : Word) (w : Nat) (hw : w ≤ 32) (h : data.toNat < 2 ^ w) :
    (data.setWidth w).setWidth 32 = data := by
  apply BitVec.eq_of_toNat_eq
  rw [BitVec.toNat_setWidth_of_le hw, BitVec.toNat_setWidth, Nat.mod_eq_of_lt h]

theorem readField_writeField_same (g : Segment) (f : Field) (data : Word) (h : fieldFits f data = true) :
    readField (writeField g f data) f = data := by
  have hfits := (fieldFits_iff f data).1 h
  cases f with
  | sequence | acknowledgment => rfl
  | source | destination | window_size | checksum | urgent_pointer => exact setWidth_setWidth_of_fits data 16 (by decide) hfits
  | data_offset => exact setWidth_setWidth_of_fits data 4 (by decide) hfits
  | control_bits => exact setWidth_setWidth_of_fits data 9 (by decide) hfits

/-- The two fields are different components of SEG; where they are the same one, `h` is contradictory. -/
theorem readField_writeField_other (g : Segment) (f f' : Field) (data : Word) (h : f' ≠ f) :
    readField (writeField g f data) f' = readField g f' := by
  cases f <;> cases f' <;> trivial

/-- Settles O26: the field holds the data, which fits, and the write of one field does not reach another. -/
theorem wrfReadBackAndFieldsApart : Obligations.WrfReadBackAndFieldsApart := by
  intro f data s t h
  obtain ⟨hfits, rfl⟩ := execWrf_next f data s t h
  refine ⟨⟨_, exec_rdf f _, ?_⟩, fun g hg => readField_writeField_other s.seg f g data hg⟩
  rw [answering_answer, answering_seg, readField_writeField_same s.seg f data hfits]

/-- Settles O24: RDF answers the 32-bit view, and a zero extension is the same number. -/
theorem rdfAnswersZeroExtendedField : Obligations.RdfAnswersZeroExtendedField := by
  intro s fv hfv
  refine ⟨readField s.seg fv.1, ?_, exec_rdf fv.1 s⟩
  have extended : ∀ (w : Nat) (x : BitVec w), w ≤ 32 → (x.setWidth 32).toNat = x.toNat := fun w x hw =>
    BitVec.toNat_setWidth_of_le hw
  simp only [List.mem_cons, List.not_mem_nil, or_false] at hfv
  rcases hfv with rfl | rfl | rfl | rfl | rfl | rfl | rfl | rfl | rfl
  · exact extended 16 _ (by decide)
  · exact extended 16 _ (by decide)
  · rfl
  · rfl
  · exact extended 4 _ (by decide)
  · exact extended 9 _ (by decide)
  · exact extended 16 _ (by decide)
  · exact extended 16 _ (by decide)
  · exact extended 16 _ (by decide)

/-- WRF of data that fits, with what it leaves in SEG given as `g`. -/
theorem exec_wrf_of_lt (f : Field) (data : Word) (s : State) (g : Segment) (hg : writeField s.seg f data = g)
    (h : data.toNat < 2 ^ fieldWidth f) :
    exec (.wrf f data) s = .next { s with seg := g, answer := some ⟨.none, .absent⟩, call := none } := by
  rw [exec_wrf_of_fits f data s ((fieldFits_iff f data).2 h), hg]
  rfl

/-- Settles O25: each write is the low bits of the data, and the two 32-bit fields take all of them. -/
theorem wrfWritesTheSelectedField : Obligations.WrfWritesTheSelectedField := by
  intro s data
  exact ⟨exec_wrf_of_lt .source data s _ rfl, exec_wrf_of_lt .destination data s _ rfl,
    exec_wrf_of_lt .sequence data s _ rfl data.isLt, exec_wrf_of_lt .acknowledgment data s _ rfl data.isLt,
    exec_wrf_of_lt .data_offset data s _ rfl, exec_wrf_of_lt .control_bits data s _ rfl,
    exec_wrf_of_lt .window_size data s _ rfl, exec_wrf_of_lt .checksum data s _ rfl,
    exec_wrf_of_lt .urgent_pointer data s _ rfl⟩

/-! ### The control flags' masks (10_state.md R11) -/

/-- A mask is one bit, so masking a value leaves the mask exactly when that bit is set. -/
theorem hasFlag_iff (g : Segment) (f : ControlFlag) :
    hasFlag g f = true ↔ g.control_bits &&& flagMask f = flagMask f := by
  have hne : 0#9 ≠ BitVec.twoPow 9 (flagBit f) := by cases f <;> decide
  rw [hasFlag, flagMask, BitVec.and_twoPow]
  cases g.control_bits.getLsbD (flagBit f) with
  | true => simp
  | false => simpa using hne

/-- Settles O11: the nine masks evaluate to the values of R11, and a mask tests its own bit. -/
theorem controlFlagMaskValues : Obligations.ControlFlagMaskValues :=
  ⟨by decide, by decide, hasFlag_iff⟩

/-! ### The frame of every command on SEG (10_state.md section 2) -/

/-- Settles O55: SEG after each command, as its inversion lemma gives it. -/
theorem segmentFrame : Obligations.SegmentFrame := by
  intro i s t h
  cases i with
  | init | rdf _ =>
    cases h
    rfl
  | setSrc p =>
    obtain ⟨-, ⟨v, -, rfl⟩ | ⟨-, rfl⟩⟩ := execSetSrc_next p s t h
    · exact ⟨v, rfl⟩
    · exact ⟨_, rfl⟩
  | setDst p =>
    obtain ⟨-, ⟨v, -, rfl⟩ | ⟨-, rfl⟩⟩ := execSetDst_next p s t h
    · exact ⟨v, rfl⟩
    · exact ⟨_, rfl⟩
  | mutate l =>
    intro hdetached
    have hexec := exec_mutate_detached l s hdetached
    rw [h] at hexec
    cases hexec
    rfl
  | pack =>
    obtain ⟨rs, d, hafter⟩ := afterReserve_cases s
    rcases execPack_next s t h with ⟨-, rfl⟩ | ⟨e, after, -, rfl⟩
    · exact ⟨5, by rw [packReserved_seg, hafter]⟩
    · exact ⟨_, by rw [packFailed_eq, hafter]⟩
  | unpack =>
    intro hlong
    rcases execUnpack_next s t h with ⟨hshort, -⟩ | ⟨-, g, hg, rfl⟩
    · exact absurd hlong (Nat.not_le.2 hshort)
    · exact hg
  | parse p =>
    obtain ⟨-, ⟨v, -, rfl⟩ | ⟨-, rfl⟩⟩ := execParse_next p s t h <;> rfl
  | wrf f data =>
    obtain ⟨-, rfl⟩ := execWrf_next f data s t h
    exact fun g hg => readField_writeField_other s.seg f g data hg

end Sys2Proof.Machine
end

section
/-! PROOFS. PACK on the Buffer (42_codec_pack.md R90 to R93): Buffers that read alike, and what PACK leaves for each answer
of the Buffer. -/

namespace Sys2Proof.Machine

/-- Settles O30: a canonical Buffer is the Buffer of its bytes, and the reads are those bytes. -/
theorem equalReadsAreEqualBuffers : Obligations.EqualReadsAreEqualBuffers := by
  intro m n hm hn hreads
  have hbytes : m.bytes = n.bytes := List.ext_getElem? fun off => by
    rw [← read_of_wf m hm off, ← read_of_wf n hn off, hreads off]
  rw [eq_ofBytes_of_wf m hm, eq_ofBytes_of_wf n hn, hbytes]

/-! ### A granted reservation -/

/-- On a canonical Buffer a reservation prepends the new bytes. -/
theorem reserve_of_wf (fresh : List Byte) (m : Memory) (h : m.wf = true) :
    m.reserve fresh = Memory.ofBytes (fresh ++ m.bytes) := by
  conv_lhs => rw [eq_ofBytes_of_wf m h]
  exact reserve_ofBytes fresh m.bytes

/-- What a granted PACK leaves, on a canonical Buffer: `BUF' = Header(SEG) ++ BUF`. -/
theorem packReserved_of_inv (s : State) (hinv : s.Inv) : packReserved s =
    { s with
      buf := Memory.ofBytes (wireHeader s.seg ++ s.buf.bytes)
      seg := { s.seg with data_offset := 5 }
      answer := some ⟨.none, .absent⟩
      call := none
      draws := s.draws + 20 } := by
  rw [packReserved_eq, reserve_of_wf _ _ hinv]

/-- Settles O31: the ten writes over the reserved bytes are the header, and a reservation prepends. -/
theorem packPrependsWireHeader : Obligations.PackPrependsWireHeader := by
  intro s rest hinv hreserves
  refine ⟨s.draws + 20, ?_⟩
  rw [exec_pack_of_granted s rest hreserves, packReserved_of_inv { s with reserves := rest } hinv]

/-- Settles O32: PACK follows the Buffer's answer, listed or free; a granted reservation leaves the header in front, a
refused one passes on an error, which is not None. -/
theorem packAlwaysAnswers : Obligations.PackAlwaysAnswers := by
  intro s hinv
  obtain ⟨rs, d, hafter⟩ := afterReserve_cases s
  cases hanswer : s.reserveAnswer Config.hdrLen with
  | ok =>
    refine .inl ⟨rs, d + 20, (execPack_of_ok s hanswer).trans ?_⟩
    rw [hafter, packReserved_of_inv { s with reserves := rs, draws := d } hinv]
  | fail e after =>
    refine .inr ⟨statusOfError e, after, Config.freeBits 4 d, rs, d + 1, statusOfError_ne_none e,
      (execPack_of_fail s e after hanswer).trans ?_⟩
    rw [hafter, packFailed_eq]

/-- Settles O33: the status of a failing PACK is the error under its own name. -/
theorem failingPackPassesBufferError : Obligations.FailingPackPassesBufferError := by
  intro s e after rest hreserves
  refine ⟨Config.freeBits 4 s.draws, s.draws + 1,
    (execPack_of_fail s e after (reserveAnswer_listed s _ _ rest hreserves)).trans ?_⟩
  rw [afterReserve_listed s _ rest hreserves, packFailed_eq]
  cases e <;> rfl

/-! ### The Buffer byte by byte, and the fields that are not read -/

/-- The Buffer after a PACK that answered None. -/
theorem exec_pack_succeeded_buf (s t : State) (hexec : exec .pack s = .next t)
    (hanswer : t.answer = some ⟨.none, .absent⟩) : t.buf = s.buf.reserve (wireHeader s.seg) := by
  obtain ⟨rs, d, hafter⟩ := afterReserve_cases s
  rw [execPack_succeeded s t hexec hanswer, packReserved_buf, hafter]

/-- Settles O34: the header is reserved at the front, and a reservation moves each old byte by its length. -/
theorem packMovesOldBytesByTwenty : Obligations.PackMovesOldBytesByTwenty := by
  intro s t hexec hanswer
  have hbuf := exec_pack_succeeded_buf s t hexec hanswer
  refine ⟨?_, exec_pack_succeeded_front s t hexec hanswer, fun k => ?_⟩
  · rw [hbuf, size_reserve, length_wireHeader]
  · rw [hbuf]
    exact read_reserve_old (wireHeader s.seg) s.buf k

/-- The header does not carry `data_offset` or the checksum of SEG. -/
theorem wireHeader_ignores (g : Segment) (o : BitVec 4) (c : BitVec 16) :
    wireHeader { g with data_offset := o, checksum := c } = wireHeader g := rfl

/-- Settles O36: the header is the same, and PACK overwrites `data_offset` and keeps the checksum. -/
theorem packIgnoresDataOffsetAndChecksum : Obligations.PackIgnoresDataOffsetAndChecksum := by
  intro s rest o c hreserves
  have hother := exec_pack_of_granted { s with seg := { s.seg with data_offset := o, checksum := c } } rest hreserves
  refine ⟨_, exec_pack_of_granted s rest hreserves, hother.trans ?_⟩
  rw [packReserved_eq, packReserved_eq, wireHeader_ignores]

end Sys2Proof.Machine
end

section
/-! PROOFS. The wire header against the fields (30_encoding.md R51 to R57): byte 12 on encode and decode, the header of
decoded fields, and UNPACK after UNPACK. -/

namespace Sys2Proof.Machine

/-! ### Byte 12 (R51, R57) -/

/-- NS is bit 0 of byte 12 on decode. -/
theorem hasFlag_NS_wireFields (b : Nat → Byte) : hasFlag (wireFields b) .NS = (b 12).getLsbD 0 := by
  show ((b 12).extractLsb' 0 1 ++ b 13 : BitVec 9).getLsbD 8 = (b 12).getLsbD 0
  rw [BitVec.getLsbD_append]
  simp

/-- The fields depend on byte 12 through its nibble and bit 0 only. -/
theorem wireFields_congr (b c : Nat → Byte) (hother : ∀ k, k ≠ 12 → b k = c k) (h12 : b 12 &&& 0xF1 = c 12 &&& 0xF1) :
    wireFields b = wireFields c := by
  obtain ⟨hnibble, hns⟩ := reserved_bits_ignored _ _ h12
  simp [wireFields, hother, hnibble, hns]

/-- Byte lists that differ in one byte agree at every other offset. -/
theorem byteAt_append_cons (before after : List Byte) (b c : Byte) (k : Nat) (h : k ≠ before.length) :
    byteAt (before ++ b :: after) k = byteAt (before ++ c :: after) k := by
  unfold byteAt
  rcases Nat.lt_or_gt_of_ne h with hlt | hgt
  · rw [List.getD_append _ _ _ _ hlt, List.getD_append _ _ _ _ hlt]
  · obtain ⟨j, hj⟩ := Nat.exists_eq_add_of_lt hgt
    rw [List.getD_append_right _ _ _ _ hgt.le, List.getD_append_right _ _ _ _ hgt.le,
      show k - before.length = j + 1 by omega, List.getD_cons_succ, List.getD_cons_succ]

theorem byteAt_append_length (before after : List Byte) (b : Byte) :
    byteAt (before ++ b :: after) before.length = b := by
  simp [byteAt]

/-- UNPACK on a Buffer given by its bytes. -/
theorem exec_unpack_ofBytes (s : State) (bs : List Byte) (h : 20 ≤ bs.length) :
    exec .unpack { s with buf := Memory.ofBytes bs } =
      .next ({ s with buf := Memory.ofBytes bs, seg := wireFields (byteAt bs) }.answering .none .absent) := by
  have hunpack := exec_unpack_of_inv { s with buf := Memory.ofBytes bs } (wf_ofBytes bs) (by rwa [size_ofBytes])
  rwa [bytes_ofBytes] at hunpack

/-- Settles O38: byte 12 of the header has the two values of R57, and on decode the fields take its nibble and bit 0. -/
theorem byte12OnEncodeAndDecode : Obligations.Byte12OnEncodeAndDecode := by
  refine ⟨?encode, ?decode, ?reserved⟩
  case encode =>
    intro s t hexec hanswer
    rw [exec_pack_succeeded_front s t hexec hanswer 12 (by decide)]
    exact congrArg some (byte12_values s.seg.control_bits)
  case decode =>
    intro s t b hexec hanswer hread
    obtain ⟨bytes, hbytes, hseg⟩ := exec_unpack_succeeded s t hexec hanswer
    obtain rfl : bytes 12 = b := Option.some.inj ((hbytes 12 (by decide)).symm.trans hread)
    rw [hseg]
    exact ⟨high_nibble_toNat (bytes 12), hasFlag_NS_wireFields bytes⟩
  case reserved =>
    intro s before after b c hbefore hafter hbits
    have hlen : ∀ x : Byte, 20 ≤ (before ++ x :: after).length := fun x => by
      rw [List.length_append, List.length_cons]
      omega
    have hfields : wireFields (byteAt (before ++ c :: after)) = wireFields (byteAt (before ++ b :: after)) := by
      refine wireFields_congr _ _ (fun k hk => byteAt_append_cons before after c b k (hbefore ▸ hk)) ?_
      rw [← hbefore, byteAt_append_length, byteAt_append_length, hbits]
    refine ⟨_, exec_unpack_ofBytes s _ (hlen b), (exec_unpack_ofBytes s _ (hlen c)).trans ?_⟩
    rw [hfields]
    rfl

/-! ### Header and Fields (R53, R54) -/

/-- `Header(Fields(b))` written out: the bytes as they were but for byte 12 and the checksum. -/
theorem wireHeader_wireFields (b : Nat → Byte) : wireHeader (wireFields b) =
    [b 0, b 1, b 2, b 3, b 4, b 5, b 6, b 7, b 8, b 9, b 10, b 11, 0x50 ||| (b 12 &&& 0x01), b 13, b 14, b 15, 0, 0,
     b 18, b 19] := by
  simp only [wireHeader, wireFields, split_half, split_word, split_control, byte12_of_byte]

/-- Settles O45: the slices of a header join to the fields, and the joined bytes split to a header again, except where the
header carries fixed bits. -/
theorem headerAndFieldsInvertEachOther : Obligations.HeaderAndFieldsInvertEachOther := by
  refine ⟨wireFields_wireHeader, fun b k hk => ?_⟩
  rw [wireHeader_wireFields]
  interval_cases k <;> rfl

/-! ### UNPACK after UNPACK -/

/-- Settles O46: UNPACK writes SEG and the outputs only, and reads neither. -/
theorem unpackTwiceIsUnpackOnce : Obligations.UnpackTwiceIsUnpackOnce := by
  intro s t hexec hanswer
  refine ⟨exec_unpack_buf s t hexec, ?_⟩
  rcases execUnpack_next s t hexec with ⟨-, rfl⟩ | ⟨hlong, g, hg, rfl⟩
  · cases hanswer
  · exact exec_unpack_of_readHeader _ g hlong hg

end Sys2Proof.Machine
end
